-- ==== Sys2Proof/Word.lean ====
section
/-! DEFINITION. The value types of 00_scope.md section 4: bytes, words, bus addresses, length registers, byte sequences and
32-byte digests. Packings and rotations stand in Machine/Bits.lean. -/

namespace Sys2Proof

/-- An unsigned 8-bit value (R9). -/
abbrev Byte := BitVec 8

/-- An unsigned 32-bit value: every register and every bus data word (R9, R22, `DATA_W` of R6). -/
abbrev Word := BitVec 32

/-- A block-relative byte address on the host bus, `ADDR_W = 18` bits (R6, R60). -/
abbrev Addr := BitVec 18

/-- The contents of a length register: the value of bits 16:0 (R34). -/
abbrev Len := BitVec 17

/-- `ByteSeq` of R9. -/
abbrev ByteSeq := List Byte

/-- `Bytes32` of R9: a hash output, a keystream block, the DIGEST register (R35). -/
abbrev Digest := Vector Byte 32

end Sys2Proof
end

