-- ==== Sys2Proof/Machine/Bits.lean ====
section
/-! DEFINITION. Byte-to-word packings (00_scope.md R11), rotations and shifts (R10). -/

namespace Sys2Proof.Machine

open Sys2Proof

/-- Byte `k` of a word, byte 0 the least significant. -/
def byteOfWord (w : Word) (k : Nat) : Byte := w.extractLsb' (8 * k) 8

/-- `BE32` (R11): the first byte is the most significant. -/
def be32 (b0 b1 b2 b3 : Byte) : Word := b0 ++ b1 ++ b2 ++ b3

/-- `LE32` (R11): the first byte is the least significant. -/
def le32 (b0 b1 b2 b3 : Byte) : Word := b3 ++ b2 ++ b1 ++ b0

/-- `BE32^-1` (R119): the bytes of a word, most significant first. -/
def be32Bytes (w : Word) : ByteSeq := [byteOfWord w 3, byteOfWord w 2, byteOfWord w 1, byteOfWord w 0]

/-- The lanes of a bus word (R64): its bytes, least significant first. -/
def le32Bytes (w : Word) : ByteSeq := [byteOfWord w 0, byteOfWord w 1, byteOfWord w 2, byteOfWord w 3]

/-- `BE64` (R11) of the 64-bit value of `n`. -/
def be64Bytes (n : Nat) : ByteSeq :=
  be32Bytes (BitVec.ofNat 32 (n / 2 ^ 32)) ++ be32Bytes (BitVec.ofNat 32 n)

/-- `ROTR(x, n)` for `0 < n < 32` (R10). -/
def rotr (x : Word) (n : Nat) : Word := x >>> n ||| x <<< (32 - n)

/-- `SHR(x, n)` (R10). -/
def shr (x : Word) (n : Nat) : Word := x >>> n

end Sys2Proof.Machine
end

