-- ==== Sys2Proof/Config.lean ====
section
/-! DEFINITION. What an instance of the block fixes (00_scope.md R6 to R8), and the free values: what the spec leaves
unspecified and a model draws (93_implementation_defined.md part 1). -/

namespace Sys2Proof

/-- The build-time parameters of an instance that R6 leaves open or swappable (R8). No step writes them (log entry 2). -/
structure Config where
  /-- `ITER_COUNT`: hash applications per `iteratedHash` (R6, R140). -/
  iterCount : Nat
  /-- `KEY_MAX`: capacity of the key buffer in bytes (R6). -/
  keyMax : Nat
  /-- `DATA_MAX`: capacity of each data buffer in bytes (R6). -/
  dataMax : Nat
  deriving DecidableEq, Repr

/-- A capacity R7 allows: a multiple of 4 in 4 to 65536. -/
def Config.capacityOk (n : Nat) : Bool := n % 4 == 0 && 4 ≤ n && n ≤ 65536

/-- The constraints of R7 on the parameters. -/
def Config.wf (c : Config) : Bool :=
  1 ≤ c.iterCount && c.iterCount < 2 ^ 16 && Config.capacityOk c.keyMax && Config.capacityOk c.dataMax

/-- The production build of the reference instance (R6): 242 applications, 256 key bytes, 4096 data bytes. -/
def Config.production : Config := ⟨242, 256, 4096⟩

/-- `BLOCK_BYTES` (R6), equal to `DIGEST_BYTES` (R7). -/
def Config.blockBytes : Nat := 32

/-- `HASH_ID` (R6): 1 is SHA-256. -/
def Config.hashId : Nat := 1

/-- FREE VALUE. The byte that the draw numbered `draw` gave to the block address `addr`: a buffer or DIGEST byte not written
since reset (R37), a byte beyond the new length after a transform (R182). Log entries 6, 7 and 8. -/
opaque Config.freeByte (draw addr : Nat) : Byte

/-- FREE VALUE. The word that the draw numbered `draw` gave to a buffer or DIGEST read while BUSY (R70). Log entry 9. -/
opaque Config.freeWord (draw : Nat) : Word

/-- FREE VALUE. `UTF8_DECODE_INVALID`: what the host makes of bytes that are not the UTF-8 of any text (R232): `none` is an
error, `some` a replacement text. Log entry 16. -/
opaque Config.utf8DecodeInvalid (bytes : ByteSeq) : Option (List Char)

end Sys2Proof
end

