-- ==== Sys2Proof/Syntax.lean ====
section
/-! DEFINITION. The commands of WCK-CMD v1 (30_encoding.md): one constructor per row of spec/opcode_table.json. -/

namespace Sys2Proof

/-- The source operand of HASH and ITERHASH (R92). -/
inductive Src where
  /-- `KEYMEM[0 : KEY_LEN]`, needs KEY_VALID. -/
  | key
  /-- `PTMEM[0 : PT_LEN]`, needs PT_VALID. -/
  | pt
  /-- `CTMEM[0 : CT_LEN]`, needs CT_VALID. -/
  | ct
  /-- `DIGEST[0 : 32]`, needs DIGEST_VALID. -/
  | digest
  deriving DecidableEq, Repr

/-- The command set (R91). -/
inductive Instr where
  /-- HASH: `DIGEST <- Hash(src)` (R122). -/
  | hash (src : Src)
  /-- ITERHASH: `DIGEST <- iteratedHash(src)` (R143). -/
  | iterhash (src : Src)
  /-- ENCRYPT: `Ciphertext <- Plaintext XOR keystream` (R180). -/
  | encrypt
  /-- DECRYPT: `Plaintext <- Ciphertext XOR keystream` (R181). -/
  | decrypt
  deriving DecidableEq, Repr

/-- The three fields of a command word (R90). -/
structure CmdFields where
  /-- Bits 7:0. -/
  op : BitVec 8
  /-- Bits 9:8. -/
  src : BitVec 2
  /-- Bits 31:10. -/
  rsvd : BitVec 22
  deriving DecidableEq, Repr

/-- Why a command word is ILLEGAL (R93, R95, R251). The block records no more than ILLEGAL_CMD (R250). -/
inductive Illegal where
  /-- A reserved bit 31:10 is set. -/
  | rsvdSet
  /-- OP is 0x00 or 0x05 to 0xFF. -/
  | unknownOp
  /-- SRC != 0 on ENCRYPT or DECRYPT. -/
  | srcNotZero
  deriving DecidableEq, Repr

/-- What decoding answers: a command, or ILLEGAL with the reason (R94). -/
inductive Decoded where
  | command (i : Instr)
  | illegal (why : Illegal)
  deriving DecidableEq, Repr

end Sys2Proof
end

