-- ==== Sys2Proof/Machine/State.lean ====
section
/-! DEFINITION. The architectural state of the block (10_state.md), the two ways a step could stop, and the state after
reset (R44). State is plain data; every register read, flag and view is a function of it in the other files. -/

namespace Sys2Proof.Machine

open Sys2Proof

/-- The sequencer state SEQ (R21). STATUS.BUSY is 1 exactly when it is `busy` (R28). -/
inductive Seq where
  | idle
  | busy
  deriving DecidableEq, Repr

/-- The result codes of STATUS.ERRCODE that R250 names. Codes 5 to 15 are reserved and never produced. -/
inductive ErrCode where
  /-- 0: the command completed and wrote its result. -/
  | ok
  /-- 1: the command word is not one of the ten legal words (R251). -/
  | illegalCmd
  /-- 2: the command needs the key and KEY_VALID = 0 (R252). -/
  | keyNotSet
  /-- 3: the command's data source is not set (R253). -/
  | srcNotSet
  /-- 4: reserved, never produced (R254; log entry 19). -/
  | hashUnavailable
  deriving DecidableEq, Repr

/-- The causes of a refused access (R255). The block records none of them (R256). -/
inductive AccCause where
  | misaligned
  | unmapped
  | roWrite
  | busyWrite
  | lenRange
  deriving DecidableEq, Repr

/-- The stored fields of STATUS (R27). BUSY is not here: it is SEQ (R28). The reserved bits read 0 (R43). -/
structure Status where
  /-- Bit 1 (R29). -/
  done : Bool
  /-- Bit 2 (R30). -/
  accErr : Bool
  /-- Bits 11:8 (R31). -/
  errCode : ErrCode
  /-- Bit 16 (R32). -/
  keyValid : Bool
  /-- Bit 17 (R32). -/
  ptValid : Bool
  /-- Bit 18 (R32). -/
  ctValid : Bool
  /-- Bit 19 (R32). -/
  digestValid : Bool
  deriving DecidableEq, Repr

/-- One atomic step of an agent (R211, R74): what the host and the environment do, and where a turn of the engine falls. -/
inductive Event where
  /-- `MemRead(addr, 4)` by the host (R61). -/
  | read (addr : Addr)
  /-- `MemWrite(addr, 4, v)` by the host (R62). -/
  | write (addr : Addr) (v : Word)
  /-- The engine's turn: it completes the running command, if there is one (R202, R211). -/
  | engine
  /-- The reset input is asserted (R290). -/
  | reset
  deriving DecidableEq, Repr

/-- Bytes by block address, strictly rising: the bytes written since the draw that an unlisted address reads from.
Machine/Memory.lean has the operations and the canonical form. -/
abbrev Memory := List Host.Cell

structure State where
  /-- The instance's build parameters, read through CFG, KEY_CAP and DATA_CAP (R23, R25). No step writes them. -/
  cfg : Config
  /-- SEQ (R21), seen as STATUS.BUSY (R28). -/
  seq : Seq
  /-- CUR_CMD, the latched command word (R40, R200). -/
  curCmd : Word
  /-- CTRL.IE (R26). -/
  ctrlIE : Bool
  /-- The stored fields of STATUS (R27). -/
  status : Status
  /-- KEY_LEN (R34). -/
  keyLen : Len
  /-- PT_LEN (R34). -/
  ptLen : Len
  /-- CT_LEN (R34). -/
  ctLen : Len
  /-- DIGEST[0..31] (R35). -/
  digest : Digest
  /-- KEYMEM, PTMEM and CTMEM (R36) at the addresses of their windows (R63, R64). -/
  mem : Memory
  /-- MODEL'S OWN: the draw that unwritten bytes of KEYMEM read from (R37). -/
  keyDraw : Nat
  /-- MODEL'S OWN: the draw that unwritten bytes of PTMEM read from (R37, R182). -/
  ptDraw : Nat
  /-- MODEL'S OWN: the draw that unwritten bytes of CTMEM read from (R37, R182). -/
  ctDraw : Nat
  /-- MODEL'S OWN: how many draws have been made. -/
  draws : Nat
  /-- MODEL'S OWN: the agents' steps still to come, in their one total order (R74, R211). -/
  events : List Event
  /-- MODEL'S OWN: the words `MemRead` has returned to the host, newest first (R60, R61). -/
  replies : List Word
  deriving DecidableEq, Repr

/-- Reasons a step could stop with a fault. The block never takes a trap and never signals a bus error (R82, R259), so there
is none (log entry 21). -/
inductive Fault
  deriving DecidableEq, Repr

/-- Reasons a step could be refused. -/
inductive Refusal where
  /-- Raised by an arm of `exec` whose instruction has no meaning yet; no arm raises it. Safe: it only stops a run. -/
  | notModelled (mnemonic : String)
  deriving DecidableEq, Repr

/-- What a step of this machine answers. -/
abbrev Out := Host.Outcome State Fault Refusal

/-- STATUS after reset: every field 0 (R44). -/
def Status.cleared : Status := ⟨false, false, .ok, false, false, false, false⟩

/-- The DIGEST bytes of the draw numbered `draw` (R37), named by the addresses DIGEST0 to DIGEST7 read them at (R22). -/
def drawnDigest (draw : Nat) : Digest := Vector.ofFn fun i => Config.freeByte draw (0x40 + i.val)

/-- The production build of the reference instance right after reset (R44). -/
def State.reset : State where
  cfg := Config.production
  seq := .idle
  curCmd := 0
  ctrlIE := false
  status := Status.cleared
  keyLen := 0
  ptLen := 0
  ctLen := 0
  digest := drawnDigest 0
  mem := []
  keyDraw := 0
  ptDraw := 0
  ctDraw := 0
  draws := 1
  events := []
  replies := []

end Sys2Proof.Machine
end

