-- ==== Sys2Proof/Machine/Flags.lean ====
section
/-! DEFINITION. The STATUS register as software reads it (10_state.md R27, R43), the interrupt line (R42) and every update of
a STATUS field that R45 lists. -/

namespace Sys2Proof.Machine

open Sys2Proof

/-- STATUS.BUSY: 1 exactly when SEQ = BUSY (R28). -/
def State.busy (s : State) : Bool := decide (s.seq = .busy)

/-- The ERRCODE values of R250. -/
def ErrCode.bits : ErrCode → BitVec 4
  | .ok => 0#4
  | .illegalCmd => 1#4
  | .keyNotSet => 2#4
  | .srcNotSet => 3#4
  | .hashUnavailable => 4#4

/-- The STATUS word (R27): the reserved bits 7:3, 15:12 and 31:20 read 0 (R43). -/
def State.statusWord (s : State) : Word :=
  0#12 ++ BitVec.ofBool s.status.digestValid ++ BitVec.ofBool s.status.ctValid ++ BitVec.ofBool s.status.ptValid ++
    BitVec.ofBool s.status.keyValid ++ 0#4 ++ s.status.errCode.bits ++ 0#5 ++ BitVec.ofBool s.status.accErr ++
    BitVec.ofBool s.status.done ++ BitVec.ofBool s.busy

/-- The IRQ output: `CTRL.IE AND STATUS.DONE` at all times (R42, R260). -/
def State.irq (s : State) : Bool := s.ctrlIE && s.status.done

/-- STATUS at the acceptance of a command: DONE and ERRCODE go to 0 (R200). -/
def Status.onAccept (st : Status) : Status := { st with done := false, errCode := .ok }

/-- STATUS at the completion of a command with the given result: DONE goes to 1 (R202). -/
def Status.onComplete (st : Status) (code : ErrCode) : Status := { st with done := true, errCode := code }

/-- STATUS at a refused access (R255). -/
def Status.onRefused (st : Status) : Status := { st with accErr := true }

/-- STATUS at a write of STATUS: DONE clears on bit 1, ACCERR on bit 2, the other bits are ignored (R27). -/
def Status.onStatusWrite (st : Status) (v : Word) : Status :=
  { st with done := st.done && !v.getLsbD 1, accErr := st.accErr && !v.getLsbD 2 }

end Sys2Proof.Machine
end

