-- ==== Sys2Proof/Machine/Memory.lean ====
section
/-! DEFINITION. The operations over memory: a list of (block address, byte) pairs in one canonical form. An address the list
does not hold has no value of its own: nothing has written it since its buffer's last draw, and Machine/Operands.lean reads the
drawn byte there (R37; log entries 6 and 15). -/

namespace Sys2Proof.Machine

open Sys2Proof

/-- The byte last written at `a`; none where nothing has been written since the buffer's draw. -/
def Memory.get (m : Memory) (a : Nat) : Option Byte :=
  match m with
  | [] => none
  | c :: rest => if c.1 = a then some c.2 else Memory.get rest a

/-- Write one byte, keeping the addresses rising. -/
def Memory.set (m : Memory) (a : Nat) (b : Byte) : Memory :=
  match m with
  | [] => [(a, b)]
  | c :: rest =>
    if a < c.1 then (a, b) :: c :: rest
    else if a = c.1 then (a, b) :: rest
    else c :: Memory.set rest a b

/-- Write a byte sequence at rising addresses from `a`. -/
def Memory.setBytes (m : Memory) (a : Nat) (bytes : ByteSeq) : Memory :=
  match bytes with
  | [] => m
  | b :: rest => Memory.setBytes (m.set a b) (a + 1) rest

/-- Forget every byte written at an address in `[lo, hi)`. -/
def Memory.forget (m : Memory) (lo hi : Nat) : Memory :=
  m.filter fun c => decide (c.1 < lo) || decide (hi ≤ c.1)

/-- The canonical form: addresses strictly rising. -/
def Memory.wf (m : Memory) : Bool :=
  match m with
  | [] => true
  | c :: rest => (rest.all fun d => decide (c.1 < d.1)) && Memory.wf rest

end Sys2Proof.Machine
end

