-- ==== Sys2Proof/Machine/Ops.lean ====
section
/-! DEFINITION. The named operations over registers and buffers that accesses and commands share: refusing an access,
accepting and completing a command, setting a session buffer. The block has no trap (R259): what other machines do by taking an
exception it does by `complete` with an error code (R202, R206) and by `refuseAccess` (R255), and there is nothing to return
from (R209). -/

namespace Sys2Proof.Machine

open Sys2Proof

/-- The three byte buffers and their windows (R36, R63). -/
inductive Window where
  | key
  | pt
  | ct
  deriving DecidableEq, Repr

/-- `window_base` (R63). -/
def Window.base : Window → Nat
  | .key => 0x10000
  | .pt => 0x20000
  | .ct => 0x30000

/-- Each window's region is 64 KiB (R63). -/
def Window.size : Nat := 0x10000

/-- `CAP(window)` (R63). -/
def Window.cap (c : Config) : Window → Nat
  | .key => c.keyMax
  | .pt => c.dataMax
  | .ct => c.dataMax

/-- `raise AccErr(cause)`: STATUS.ACCERR goes to 1; neither cause nor address is recorded (R255, R256). -/
def refuseAccess (_cause : AccCause) (s : State) : State := { s with status := s.status.onRefused }

/-- `MemRead` answers the host with a word (R60). -/
def reply (w : Word) (s : State) : State := { s with replies := w :: s.replies }

/-- `MemRead` answers the host with an unspecified word, a fresh draw (R70). -/
def replyDrawn (s : State) : State :=
  { s with replies := Config.freeWord s.draws :: s.replies, draws := s.draws + 1 }

/-- Acceptance of a command word (R200). -/
def accept (w : Word) (s : State) : State :=
  { s with curCmd := w, seq := .busy, status := s.status.onAccept }

/-- Completion of the running command with the given result, after its effects if it has any (R202). With an error code this
is all that a command does (R206). -/
def complete (code : ErrCode) (s : State) : State :=
  { s with seq := .idle, status := s.status.onComplete code }

/-- Write the length register of a buffer and set its valid bit (R34, R180, R181). -/
def setLen (w : Window) (n : Len) (s : State) : State :=
  match w with
  | .key => { s with keyLen := n, status := { s.status with keyValid := true } }
  | .pt => { s with ptLen := n, status := { s.status with ptValid := true } }
  | .ct => { s with ctLen := n, status := { s.status with ctValid := true } }

/-- Make every byte of a buffer unwritten, reading from a fresh draw (R37, R182). -/
def redraw (w : Window) (s : State) : State :=
  let m := s.mem.forget w.base (w.base + Window.size)
  match w with
  | .key => { s with mem := m, keyDraw := s.draws, draws := s.draws + 1 }
  | .pt => { s with mem := m, ptDraw := s.draws, draws := s.draws + 1 }
  | .ct => { s with mem := m, ctDraw := s.draws, draws := s.draws + 1 }

/-- Write bytes into a buffer from index `i` on (R62, R64). -/
def writeBuf (w : Window) (i : Nat) (bytes : ByteSeq) (s : State) : State :=
  { s with mem := s.mem.setBytes (w.base + i) bytes }

/-- What a successful transform does to its output buffer: the result in the first bytes, an unspecified byte at every later
index, the length and the valid bit (R180, R181, R182). -/
def storeSession (w : Window) (n : Len) (bytes : ByteSeq) (s : State) : State :=
  setLen w n (writeBuf w 0 bytes (redraw w s))

/-- All 32 bytes of DIGEST and DIGEST_VALID at once (R35, R122, R143). -/
def storeDigest (d : Digest) (s : State) : State :=
  { s with digest := d, status := { s.status with digestValid := true } }

end Sys2Proof.Machine
end

