-- ==== Sys2Proof/Machine/Operands.lean ====
section
/-! DEFINITION. Reading the state: single buffer bytes, the session views of R38, and the operand forms of R92 with the
valid bit each needs (R205). -/

namespace Sys2Proof.Machine

open Sys2Proof

/-- The draw that the unwritten bytes of a buffer read from (R37, R182). -/
def State.drawOf (s : State) : Window → Nat
  | .key => s.keyDraw
  | .pt => s.ptDraw
  | .ct => s.ctDraw

/-- Byte `i` of a buffer, at window address `base + i` (R36, R64); the drawn byte where nothing has been written (R37). -/
def State.bufByte (s : State) (w : Window) (i : Nat) : Byte :=
  (s.mem.get (w.base + i)).getD (Config.freeByte (s.drawOf w) (w.base + i))

/-- `BUF[0 : n]`. -/
def State.bufBytes (s : State) (w : Window) (n : Nat) : ByteSeq :=
  (List.range n).map fun i => s.bufByte w i

/-- The length register of a buffer (R34). -/
def State.lenOf (s : State) : Window → Len
  | .key => s.keyLen
  | .pt => s.ptLen
  | .ct => s.ctLen

/-- The valid bit of a buffer (R32). -/
def State.validOf (s : State) : Window → Bool
  | .key => s.status.keyValid
  | .pt => s.status.ptValid
  | .ct => s.status.ctValid

/-- The session value of a buffer: Key, Plaintext or Ciphertext (R38). -/
def State.session (s : State) (w : Window) : ByteSeq := s.bufBytes w (s.lenOf w).toNat

/-- The operand bytes of a source (R92). -/
def State.srcBytes (s : State) : Src → ByteSeq
  | .key => s.session .key
  | .pt => s.session .pt
  | .ct => s.session .ct
  | .digest => s.digest.toList

/-- The valid bit a source needs (R92). -/
def State.srcValid (s : State) : Src → Bool
  | .key => s.validOf .key
  | .pt => s.validOf .pt
  | .ct => s.validOf .ct
  | .digest => s.status.digestValid

/-- The error when a source is not set (R205, R252, R253). -/
def notSetError : Src → ErrCode
  | .key => .keyNotSet
  | .pt => .srcNotSet
  | .ct => .srcNotSet
  | .digest => .srcNotSet

end Sys2Proof.Machine
end

