-- ==== Sys2Proof/Machine/Bus.lean ====
section
/-! DEFINITION. The host bus: the register map (10_state.md R22), the address map (20_memory.md R63) and the two accesses
`MemRead` (R61) and `MemWrite` (R62). -/

namespace Sys2Proof.Machine

open Sys2Proof

/-- The registers of R22. -/
inductive Reg where
  | id
  | cfg
  | keyCap
  | dataCap
  | ctrl
  | status
  | cmd
  /-- KEY_LEN, PT_LEN or CT_LEN. -/
  | len (w : Window)
  /-- DIGEST0 to DIGEST7. -/
  | digest (k : Fin 8)
  deriving DecidableEq, Repr

/-- What an address selects. -/
inductive Target where
  /-- A register. -/
  | reg (r : Reg)
  /-- The word at byte index `i` of a buffer. -/
  | buf (w : Window) (i : Nat)
  /-- Nothing: the access is refused. -/
  | refused (why : AccCause)
  deriving DecidableEq, Repr

/-- The offset table of R22. Every other offset of the register page is unmapped. -/
def regAt (off : Nat) : Option Reg :=
  if off = 0x00 then some .id
  else if off = 0x04 then some .cfg
  else if off = 0x08 then some .keyCap
  else if off = 0x0C then some .dataCap
  else if off = 0x10 then some .ctrl
  else if off = 0x14 then some .status
  else if off = 0x18 then some .cmd
  else if off = 0x20 then some (.len .key)
  else if off = 0x24 then some (.len .pt)
  else if off = 0x28 then some (.len .ct)
  else if 0x40 ≤ off ∧ off < 0x60 ∧ off % 4 = 0 then some (.digest (Fin.ofNat 8 ((off - 0x40) / 4)))
  else none

/-- The block address of a buffer's length register (R22). -/
def lenAddr : Window → Addr
  | .key => 0x00020
  | .pt => 0x00024
  | .ct => 0x00028

/-- The word of a window at block address `n`, mapped up to the buffer's capacity (R61, R63). -/
def windowTarget (c : Config) (w : Window) (n : Nat) : Target :=
  if n - w.base + 3 ≥ w.cap c then .refused .unmapped else .buf w (n - w.base)

/-- What a block address selects, alignment first (R61 to R63, R68). -/
def target (c : Config) (addr : Addr) : Target :=
  let n := addr.toNat
  if n % 4 ≠ 0 then .refused .misaligned
  else if n < 0x10000 then
    match regAt n with
    | some r => .reg r
    | none => .refused .unmapped
  else if n < 0x20000 then windowTarget c .key n
  else if n < 0x30000 then windowTarget c .pt n
  else windowTarget c .ct n

/-- ID (R24). -/
def idWord : Word := 0x57434B01

/-- CFG: HASH_ID, BLOCK_BYTES, ITER_COUNT (R23). -/
def cfgWord (c : Config) : Word :=
  BitVec.ofNat 8 Config.hashId ++ BitVec.ofNat 8 Config.blockBytes ++ BitVec.ofNat 16 c.iterCount

/-- Byte `i` of DIGEST. -/
def State.digestByte (s : State) (i : Nat) : Byte := s.digest.toList.getD i 0

/-- DIGESTk: bytes `4k .. 4k+3` of DIGEST, little-endian (R65). -/
def State.digestWord (s : State) (k : Fin 8) : Word :=
  le32 (s.digestByte (4 * k.val)) (s.digestByte (4 * k.val + 1)) (s.digestByte (4 * k.val + 2))
    (s.digestByte (4 * k.val + 3))

/-- The bus word at byte index `i` of a buffer, little-endian (R61, R64). -/
def State.bufWord (s : State) (w : Window) (i : Nat) : Word :=
  le32 (s.bufByte w i) (s.bufByte w (i + 1)) (s.bufByte w (i + 2)) (s.bufByte w (i + 3))

/-- A register's read value; CMD reads 0 (R22 to R27, R33 to R35). -/
def State.regWord (s : State) : Reg → Word
  | .id => idWord
  | .cfg => cfgWord s.cfg
  | .keyCap => BitVec.ofNat 32 s.cfg.keyMax
  | .dataCap => BitVec.ofNat 32 s.cfg.dataMax
  | .ctrl => (BitVec.ofBool s.ctrlIE).setWidth 32
  | .status => s.statusWord
  | .cmd => 0
  | .len w => (s.lenOf w).setWidth 32
  | .digest k => s.digestWord k

/-- `MemRead(addr, 4)`: the state after it, with the word it returned at the head of `replies` (R61, R70). -/
def memRead (addr : Addr) (s : State) : State :=
  match target s.cfg addr with
  | .refused why => reply 0 (refuseAccess why s)
  | .reg (.digest k) => if s.busy then replyDrawn s else reply (s.digestWord k) s
  | .reg r => reply (s.regWord r) s
  | .buf w i => if s.busy then replyDrawn s else reply (s.bufWord w i) s

/-- A write of a length register (R34): all 32 bits of the value are compared with the capacity. -/
def writeLen (w : Window) (v : Word) (s : State) : State :=
  if s.busy then refuseAccess .busyWrite s
  else if w.cap s.cfg < v.toNat then refuseAccess .lenRange s
  else setLen w (v.setWidth 17) s

/-- A write of CMD: accepted while IDLE, refused while BUSY (R200, R201). -/
def writeCmd (v : Word) (s : State) : State :=
  if s.busy then refuseAccess .busyWrite s else accept v s

/-- A register's write rule (R26, R27, R33, R34, R69). -/
def regWrite (r : Reg) (v : Word) (s : State) : State :=
  match r with
  | .ctrl => { s with ctrlIE := v.getLsbD 0 }
  | .status => { s with status := s.status.onStatusWrite v }
  | .cmd => writeCmd v s
  | .len w => writeLen w v s
  | .id => refuseAccess .roWrite s
  | .cfg => refuseAccess .roWrite s
  | .keyCap => refuseAccess .roWrite s
  | .dataCap => refuseAccess .roWrite s
  | .digest _ => refuseAccess .roWrite s

/-- `MemWrite(addr, 4, v)` (R62, R70). -/
def memWrite (addr : Addr) (v : Word) (s : State) : State :=
  match target s.cfg addr with
  | .refused why => refuseAccess why s
  | .reg r => regWrite r v s
  | .buf w i => if s.busy then refuseAccess .busyWrite s else writeBuf w i (le32Bytes v) s

end Sys2Proof.Machine
end

