-- ==== Sys2Proof/WellFormed.lean ====
section
/-! DEFINITION. Which command fields are legal (30_encoding.md R91, R93, R95). Every term of `Instr` has legal fields: the
type admits no other (Laws/PerInstr.lean proves it per constructor). -/

namespace Sys2Proof

/-- RSVD must be 0 (R93). -/
def CmdFields.rsvdOk (f : CmdFields) : Bool := f.rsvd == 0

/-- OP must be one of the four of R91. -/
def CmdFields.opOk (f : CmdFields) : Bool := 0x01#8 ≤ f.op && f.op ≤ 0x04#8

/-- SRC must be 0 for ENCRYPT (0x03) and DECRYPT (0x04) (R90, R93). -/
def CmdFields.srcOk (f : CmdFields) : Bool :=
  !(f.op == 0x03#8 || f.op == 0x04#8) || f.src == 0

/-- The three checks together: the fields of a legal command word (R95). -/
def CmdFields.wellFormed (f : CmdFields) : Bool := f.rsvdOk && f.opOk && f.srcOk

end Sys2Proof
end

