-- ==== Sys2Proof/Decode.lean ====
section
/-! DEFINITION. Decoding and encoding of command words (30_encoding.md R90 to R96). -/

namespace Sys2Proof

/-- The fields of a 32-bit command word: OP 7:0, SRC 9:8, RSVD 31:10 (R90). -/
def splitWord (w : Word) : CmdFields :=
  ⟨w.extractLsb' 0 8, w.extractLsb' 8 2, w.extractLsb' 10 22⟩

/-- The source that a SRC selector names (R92). -/
def srcOfBits (b : BitVec 2) : Src :=
  if b = 0#2 then .key else if b = 1#2 then .pt else if b = 2#2 then .ct else .digest

/-- The decode function of R94, total on 32-bit words; an ILLEGAL word is rejected with its reason. -/
def decode (w : Word) : Decoded :=
  let f := splitWord w
  if f.rsvd ≠ 0 then .illegal .rsvdSet
  else if f.op = 0x01#8 then .command (.hash (srcOfBits f.src))
  else if f.op = 0x02#8 then .command (.iterhash (srcOfBits f.src))
  else if f.op = 0x03#8 then (if f.src = 0 then .command .encrypt else .illegal .srcNotZero)
  else if f.op = 0x04#8 then (if f.src = 0 then .command .decrypt else .illegal .srcNotZero)
  else .illegal .unknownOp

/-- The SRC selector of a source (R92). -/
def Src.bits : Src → BitVec 2
  | .key => 0#2
  | .pt => 1#2
  | .ct => 2#2
  | .digest => 3#2

/-- The fields of a command's word (R90 to R92). -/
def Instr.fields : Instr → CmdFields
  | .hash src => ⟨0x01#8, src.bits, 0⟩
  | .iterhash src => ⟨0x02#8, src.bits, 0⟩
  | .encrypt => ⟨0x03#8, 0, 0⟩
  | .decrypt => ⟨0x04#8, 0, 0⟩

/-- The word with the given fields (R90). -/
def joinFields (f : CmdFields) : Word := f.rsvd ++ f.src ++ f.op

/-- The word of a command (R96). -/
def encode (i : Instr) : Word := joinFields i.fields

/-- A command is well formed when its fields are. -/
def Instr.wellFormed (i : Instr) : Bool := i.fields.wellFormed

/-- The command word that a table row's bits give: bit 0 is the least significant, and every bit from `nbits` up is 0.
Every command is exactly one 32-bit word (R90). -/
def tableWord (nbits w : Nat) : Word := BitVec.ofNat 32 (w % 2 ^ nbits)

/-- The instruction the decoder reads from a table row's bits; none where the word is ILLEGAL. -/
def decodeTableWord (nbits w : Nat) : Option Instr :=
  match decode (tableWord nbits w) with
  | .command i => some i
  | .illegal _ => none

end Sys2Proof
end

