-- ==== Sys2Proof/Machine/Sha256.lean ====
section
/-! DEFINITION. The hash core: SHA-256 as 40_sha256_core.md rules R110 to R119 define it. -/

namespace Sys2Proof.Machine

open Sys2Proof

/-- Eight words: an intermediate hash value `H_0 .. H_7` (R113), or the working variables `a .. h` (R117). -/
structure Words8 where
  a : Word
  b : Word
  c : Word
  d : Word
  e : Word
  f : Word
  g : Word
  h : Word
  deriving DecidableEq, Repr

/-- The words in order, `a` or `H_0` first. -/
def Words8.toList (v : Words8) : List Word := [v.a, v.b, v.c, v.d, v.e, v.f, v.g, v.h]

/-- The padding of R111: 0x80, `(55 - n) mod 64` zeros, the length in bits as `BE64`. -/
def shaPad (m : ByteSeq) : ByteSeq :=
  m ++ 0x80#8 :: List.replicate ((55 + 63 * m.length) % 64) 0#8 ++ be64Bytes (8 * m.length)

/-- The number of 64-byte blocks of a padded `n`-byte message (R120). -/
def shaBlockCount (n : Nat) : Nat := (n + 8) / 64 + 1

/-- The first `k` big-endian words of a byte sequence (R112). -/
def be32Words : Nat → ByteSeq → List Word
  | 0, _ => []
  | k + 1, m => be32 (m.getD 0 0) (m.getD 1 0) (m.getD 2 0) (m.getD 3 0) :: be32Words k (m.drop 4)

/-- The initial hash value (R113). -/
def shaInit : Words8 where
  a := 0x6a09e667
  b := 0xbb67ae85
  c := 0x3c6ef372
  d := 0xa54ff53a
  e := 0x510e527f
  f := 0x9b05688c
  g := 0x1f83d9ab
  h := 0x5be0cd19

/-- The table of R114 as it is printed: a row holds eight constants, the first in its most significant word. -/
def shaKRows : List (BitVec 256) := [
  0x428a2f98_71374491_b5c0fbcf_e9b5dba5_3956c25b_59f111f1_923f82a4_ab1c5ed5,
  0xd807aa98_12835b01_243185be_550c7dc3_72be5d74_80deb1fe_9bdc06a7_c19bf174,
  0xe49b69c1_efbe4786_0fc19dc6_240ca1cc_2de92c6f_4a7484aa_5cb0a9dc_76f988da,
  0x983e5152_a831c66d_b00327c8_bf597fc7_c6e00bf3_d5a79147_06ca6351_14292967,
  0x27b70a85_2e1b2138_4d2c6dfc_53380d13_650a7354_766a0abb_81c2c92e_92722c85,
  0xa2bfe8a1_a81a664b_c24b8b70_c76c51a3_d192e819_d6990624_f40e3585_106aa070,
  0x19a4c116_1e376c08_2748774c_34b0bcb5_391c0cb3_4ed8aa4a_5b9cca4f_682e6ff3,
  0x748f82ee_78a5636f_84c87814_8cc70208_90befffa_a4506ceb_bef9a3f7_c67178f2]

/-- The eight words of a row of constants, in the order of the table. -/
def rowWords (row : BitVec 256) : List Word := (List.range 8).map fun k => row.extractLsb' (224 - 32 * k) 32

/-- The round constants `K_0 .. K_63`, row by row (R114). -/
def shaK : List Word := shaKRows.flatMap rowWords

/-- `Ch` (R115). -/
def shaCh (x y z : Word) : Word := (x &&& y) ^^^ (~~~x &&& z)

/-- `Maj` (R115). -/
def shaMaj (x y z : Word) : Word := (x &&& y) ^^^ (x &&& z) ^^^ (y &&& z)

/-- `SIGMA0` (R115). -/
def bigSigma0 (x : Word) : Word := rotr x 2 ^^^ rotr x 13 ^^^ rotr x 22

/-- `SIGMA1` (R115). -/
def bigSigma1 (x : Word) : Word := rotr x 6 ^^^ rotr x 11 ^^^ rotr x 25

/-- `sigma0` (R115). -/
def smallSigma0 (x : Word) : Word := rotr x 7 ^^^ rotr x 18 ^^^ shr x 3

/-- `sigma1` (R115). -/
def smallSigma1 (x : Word) : Word := rotr x 17 ^^^ rotr x 19 ^^^ shr x 10

/-- `k` further words of the schedule, on the words so far with the newest first: `W_{t-2}` stands at 1, `W_{t-7}` at 6,
`W_{t-15}` at 14 and `W_{t-16}` at 15 (R116). -/
def extendSchedule : Nat → List Word → List Word
  | 0, ws => ws
  | k + 1, ws =>
    extendSchedule k
      ((smallSigma1 (ws.getD 1 0) + ws.getD 6 0 + smallSigma0 (ws.getD 14 0) + ws.getD 15 0) :: ws)

/-- The message schedule `W_0 .. W_63` of a block (R116). -/
def shaSchedule (block : ByteSeq) : List Word := (extendSchedule 48 (be32Words 16 block).reverse).reverse

/-- One round, with the round constant `K_t` and the schedule word `W_t` (R117). -/
def shaRound (v : Words8) (kw : Word × Word) : Words8 :=
  let t1 := v.h + bigSigma1 v.e + shaCh v.e v.f v.g + kw.1 + kw.2
  let t2 := bigSigma0 v.a + shaMaj v.a v.b v.c
  ⟨t1 + t2, v.a, v.b, v.c, v.d + t1, v.e, v.f, v.g⟩

/-- The 64 rounds of a block from the intermediate value `hv` (R117). -/
def shaRounds (hv : Words8) (block : ByteSeq) : Words8 := (shaK.zip (shaSchedule block)).foldl shaRound hv

/-- Word by word addition modulo 2^32 (R118). -/
def addWords (x y : Words8) : Words8 :=
  ⟨x.a + y.a, x.b + y.b, x.c + y.c, x.d + y.d, x.e + y.e, x.f + y.f, x.g + y.g, x.h + y.h⟩

/-- The intermediate hash value after one block (R118). -/
def shaBlock (hv : Words8) (block : ByteSeq) : Words8 := addWords (shaRounds hv block) hv

/-- Process `k` blocks of 64 bytes in order (R110, R112). -/
def shaBlocks : Nat → Words8 → ByteSeq → Words8
  | 0, hv, _ => hv
  | k + 1, hv, m => shaBlocks k (shaBlock hv (m.take 64)) (m.drop 64)

/-- The output: each word most significant byte first (R119). -/
def shaOutput (hv : Words8) : Digest := Vector.ofFn fun i => (hv.toList.flatMap be32Bytes).getD i.val 0

/-- `Hash`: SHA-256 (R3, R110). -/
def sha256 (m : ByteSeq) : Digest := shaOutput (shaBlocks (shaBlockCount m.length) shaInit (shaPad m))

end Sys2Proof.Machine
end

