-- ==== Sys2Proof/Machine/Chain.lean ====
section
/-! DEFINITION. The iterated hash controller (41_iterated_hash.md R140), the keystream expander (42_keystream_expander.md
R160) and the XOR transform of a byte sequence (43_xor_transform.md R180, R185). -/

namespace Sys2Proof.Machine

open Sys2Proof

/-- `r` further applications of `Hash`, each to the 32 bytes of the one before (R140). -/
def rehash : Nat → Digest → Digest
  | 0, d => d
  | r + 1, d => rehash r (sha256 d.toList)

/-- `iteratedHash` for an instance with the given `ITER_COUNT`: one application to the seed, then `ITER_COUNT - 1` further
ones (R140, R141). -/
def iteratedHash (iterCount : Nat) (seed : ByteSeq) : Digest := rehash (iterCount - 1) (sha256 seed)

/-- The loop of R160: `n` more bytes, from the current block and the number of its bytes consumed. -/
def keystreamFrom (iterCount : Nat) : Nat → Digest → Nat → ByteSeq
  | 0, _, _ => []
  | n + 1, blk, j =>
    if j = Config.blockBytes then
      (iteratedHash iterCount blk.toList).toList.getD 0 0 ::
        keystreamFrom iterCount n (iteratedHash iterCount blk.toList) 1
    else blk.toList.getD j 0 :: keystreamFrom iterCount n blk (j + 1)

/-- `deriveKeystream(key, L)` (R160). -/
def deriveKeystream (iterCount : Nat) (key : ByteSeq) (n : Nat) : ByteSeq :=
  keystreamFrom iterCount n (iteratedHash iterCount key) 0

/-- Byte by byte exclusive-or (R185). -/
def xorBytes (a b : ByteSeq) : ByteSeq := List.zipWith (· ^^^ ·) a b

/-- The transform of a session value: XOR with the keystream sized to it (R167, R180, R181). -/
def transform (iterCount : Nat) (key data : ByteSeq) : ByteSeq :=
  xorBytes data (deriveKeystream iterCount key data.length)

end Sys2Proof.Machine
end

