-- ==== Sys2Proof/Machine/HashCommands.lean ====
section
/-! DEFINITION. HASH (40_sha256_core.md R122) and ITERHASH (41_iterated_hash.md R143): the engine's completion step of each,
on the operands as they stand (R202, R203). -/

namespace Sys2Proof.Machine

open Sys2Proof

/-- HASH: `DIGEST <- Hash(src)`, or the error of a source that is not set (R122). -/
def execHash (src : Src) (s : State) : Out :=
  if s.srcValid src then .next (complete .ok (storeDigest (sha256 (s.srcBytes src)) s))
  else .next (complete (notSetError src) s)

/-- ITERHASH: `DIGEST <- iteratedHash(src)`, or the error of a source that is not set (R143). -/
def execIterhash (src : Src) (s : State) : Out :=
  if s.srcValid src then .next (complete .ok (storeDigest (iteratedHash s.cfg.iterCount (s.srcBytes src)) s))
  else .next (complete (notSetError src) s)

end Sys2Proof.Machine
end

