-- ==== Sys2Proof/Machine/TransformCommands.lean ====
section
/-! DEFINITION. ENCRYPT and DECRYPT (43_xor_transform.md R180 to R183): the engine's completion step of each, on the operands
as they stand (R202, R203). -/

namespace Sys2Proof.Machine

open Sys2Proof

/-- ENCRYPT (R180): the key is checked before the plaintext (R257). -/
def execEncrypt (s : State) : Out :=
  if !s.status.keyValid then .next (complete .keyNotSet s)
  else if !s.status.ptValid then .next (complete .srcNotSet s)
  else
    .next (complete .ok
      (storeSession .ct s.ptLen (transform s.cfg.iterCount (s.session .key) (s.session .pt)) s))

/-- DECRYPT (R181): the key is checked before the ciphertext (R257). -/
def execDecrypt (s : State) : Out :=
  if !s.status.keyValid then .next (complete .keyNotSet s)
  else if !s.status.ctValid then .next (complete .srcNotSet s)
  else
    .next (complete .ok
      (storeSession .pt s.ctLen (transform s.cfg.iterCount (s.session .key) (s.session .ct)) s))

end Sys2Proof.Machine
end

