-- ==== Sys2Proof/Machine/Dispatch.lean ====
section
/-! DEFINITION. The execution function on a decoded command (44_command_sequencer.md R204). -/

namespace Sys2Proof.Machine

open Sys2Proof

def exec (i : Instr) (s : State) : Host.Outcome State Fault Refusal :=
  match i with
  | .hash src => Sys2Proof.Machine.execHash src s
  | .iterhash src => Sys2Proof.Machine.execIterhash src s
  | .encrypt => Sys2Proof.Machine.execEncrypt s
  | .decrypt => Sys2Proof.Machine.execDecrypt s

end Sys2Proof.Machine
end

