-- ==== Sys2Proof/Machine/Engine.lean ====
section
/-! DEFINITION. The engine's turn (44_command_sequencer.md R202, R204, R211). -/

namespace Sys2Proof.Machine

open Sys2Proof

/-- An ILLEGAL command word completes with ILLEGAL_CMD and no other effect (R94, R251). -/
def completeIllegal (_why : Illegal) (s : State) : Out := .next (complete .illegalCmd s)

/-- While BUSY the engine decodes CUR_CMD and completes it; while IDLE its step is not enabled and nothing happens (R211). -/
def engineTurn (s : State) : Out :=
  match s.seq with
  | .idle => .next s
  | .busy =>
    match decode s.curCmd with
    | .command i => exec i s
    | .illegal why => completeIllegal why s

end Sys2Proof.Machine
end

