-- ==== Sys2Proof/Machine/Reset.lean ====
section
/-! DEFINITION. The reset input (70_reset_and_hazards.md R290 to R293). -/

namespace Sys2Proof.Machine

open Sys2Proof

/-- Reset, one atomic step: every register and field goes to its value of R44, a running command ends with none of its effects
(R291), and buffer and DIGEST bytes read from a fresh draw (R37, R292). The instance's parameters, what is still to come on the
bus and what the host has read are not the block's to reset. -/
def applyReset (s : State) : State :=
  { State.reset with
    cfg := s.cfg
    digest := drawnDigest s.draws
    keyDraw := s.draws
    ptDraw := s.draws
    ctDraw := s.draws
    draws := s.draws + 1
    events := s.events
    replies := s.replies }

end Sys2Proof.Machine
end

