-- ==== Sys2Proof/Machine/Turn.lean ====
section
/-! DEFINITION. Whose turn it is: one step of the agent that the event list names (44_command_sequencer.md R211, 20_memory.md
R74), and placing a command word for the engine. -/

namespace Sys2Proof.Machine

open Sys2Proof

/-- One agent's step. -/
def perform (e : Event) (s : State) : Out :=
  match e with
  | .read addr => .next (memRead addr s)
  | .write addr v => .next (memWrite addr v s)
  | .engine => engineTurn s
  | .reset => .next (applyReset s)

/-- One step of the machine: the next event, or the engine's turn when none is left, so that an accepted command completes
(R207; log entry 4). -/
def turn (s : State) : Out :=
  match s.events with
  | [] => engineTurn s
  | e :: rest => perform e { s with events := rest }

/-- A command word accepted (R200), with the very next turn the engine's. -/
def placeCommand (w : Word) (s : State) : State :=
  match s.events with
  | [] => accept w s
  | e :: rest => { accept w s with events := .engine :: e :: rest }

end Sys2Proof.Machine
end

