-- ==== Sys2Proof/Machine/Step.lean ====
section
/-! DEFINITION. The machine's step, and where it takes its next command from. -/

namespace Sys2Proof.Machine

open Sys2Proof

/-- One atomic step (R74, R211). -/
def step (s : State) : Host.Outcome State Fault Refusal := turn s

/-- The state in which the command word of a table row has just been accepted and the next step is the engine's (R200, R202;
log entry 5). -/
def State.withFetchWord (s : State) (nbits w : Nat) : State := placeCommand (tableWord nbits w) s

end Sys2Proof.Machine
end

