-- ==== Sys2Proof/Machine/HostBoundary.lean ====
section
/-! DEFINITION. Host-side conventions, no part of the block (00_scope.md R5): the hex codec and the text conversions
of 45_host_boundary.md R231 to R237, and the write sequences that the host notation's pseudo-operations stand for (30_encoding.md
R98). A host string is its list of characters. -/

namespace Sys2Proof.Machine

open Sys2Proof

/-- `DIGIT(v)`: '0' to '9', then 'a' to 'f' (R233). -/
def hexDigit (v : BitVec 4) : Char :=
  ['0', '1', '2', '3', '4', '5', '6', '7', '8', '9', 'a', 'b', 'c', 'd', 'e', 'f'].getD v.toNat '0'

/-- `hexEncode` (R233). -/
def hexEncode (bytes : ByteSeq) : List Char :=
  bytes.flatMap fun b => [hexDigit (b.extractLsb' 4 4), hexDigit (b.extractLsb' 0 4)]

/-- `VAL`: the inverse of `DIGIT`, extended to 'A' to 'F' (R234). -/
def hexValue (c : Char) : Option (BitVec 4) :=
  let n := c.toNat
  if 48 ≤ n ∧ n ≤ 57 then some (BitVec.ofNat 4 (n - 48))
  else if 97 ≤ n ∧ n ≤ 102 then some (BitVec.ofNat 4 (n - 87))
  else if 65 ≤ n ∧ n ≤ 70 then some (BitVec.ofNat 4 (n - 55))
  else none

/-- The errors of `hexDecode` (R234). -/
inductive HexError where
  | oddLength
  | invalidDigit
  deriving DecidableEq, Repr

/-- What `hexDecode` answers. -/
inductive HexResult where
  | bytes (b : ByteSeq)
  | error (e : HexError)
  deriving DecidableEq, Repr

/-- The bytes of pairs of digits; none where a character is no digit. -/
def hexPairs : List Char → Option ByteSeq
  | hi :: lo :: rest =>
    match hexValue hi, hexValue lo, hexPairs rest with
    | some h, some l, some bs => some ((h ++ l) :: bs)
    | _, _, _ => none
  | _ => some []

/-- `hexDecode`: an odd length is reported before an invalid digit (R234, R235). -/
def hexDecode (text : List Char) : HexResult :=
  if text.length % 2 = 1 then .error .oddLength
  else
    match hexPairs text with
    | some bs => .bytes bs
    | none => .error .invalidDigit

/-- A continuation byte of UTF-8: the low six bits of `v`. -/
def utf8Tail (v : Nat) : Byte := BitVec.ofNat 8 (0x80 + v % 64)

/-- The UTF-8 bytes of one character (PRESUMED: the spec names UTF-8 and does not define it; log entry 16). -/
def charBytes (c : Char) : ByteSeq :=
  let v := c.toNat
  if v < 0x80 then [BitVec.ofNat 8 v]
  else if v < 0x800 then [BitVec.ofNat 8 (0xC0 + v / 64), utf8Tail v]
  else if v < 0x10000 then [BitVec.ofNat 8 (0xE0 + v / 4096), utf8Tail (v / 64), utf8Tail v]
  else [BitVec.ofNat 8 (0xF0 + v / 262144), utf8Tail (v / 4096), utf8Tail (v / 64), utf8Tail v]

/-- The UTF-8 bytes of a text, with no byte-order mark and no normalisation (R231, R232). -/
def textBytes (text : List Char) : ByteSeq := text.flatMap charBytes

/-- The only character whose UTF-8 bytes `bytes` could begin with, read from the length its first byte announces. -/
def leadChar (bytes : ByteSeq) : Char :=
  let b k := (bytes.getD k 0).toNat
  if b 0 < 0x80 then Char.ofNat (b 0)
  else if b 0 < 0xE0 then Char.ofNat (b 0 % 32 * 64 + b 1 % 64)
  else if b 0 < 0xF0 then Char.ofNat (b 0 % 16 * 4096 + b 1 % 64 * 64 + b 2 % 64)
  else Char.ofNat (b 0 % 8 * 262144 + b 1 % 64 * 4096 + b 2 % 64 * 64 + b 3 % 64)

/-- The text of at most `n` characters whose UTF-8 is `bytes`; none where there is no such text. -/
def decodeText : Nat → ByteSeq → Option (List Char)
  | _, [] => some []
  | 0, _ :: _ => none
  | n + 1, b :: rest =>
    let c := leadChar (b :: rest)
    if (charBytes c).isPrefixOf (b :: rest) then
      (decodeText n ((b :: rest).drop (charBytes c).length)).map (c :: ·)
    else none

/-- Bytes read back as UTF-8 text (R232); bytes that are no UTF-8 get what the host's parameter says. -/
def readText (bytes : ByteSeq) : Option (List Char) :=
  match decodeText bytes.length bytes with
  | some text => some text
  | none => Config.utf8DecodeInvalid bytes

/-- `LOADBYTES <window>, b0 b1 ...` from byte index `i` on: whole words, missing bytes 0 (R98). DESIGN CHOICE: also where the bytes
run past the window or the bus, whose addresses are the low 18 bits (log entry 22). -/
def loadBytes (w : Window) (i : Nat) : ByteSeq → List Event
  | b0 :: b1 :: b2 :: b3 :: rest =>
    .write (BitVec.ofNat 18 (w.base + i)) (le32 b0 b1 b2 b3) :: loadBytes w (i + 4) rest
  | [] => []
  | part =>
    [.write (BitVec.ofNat 18 (w.base + i)) (le32 (part.getD 0 0) (part.getD 1 0) (part.getD 2 0) (part.getD 3 0))]

/-- A session value set by the host: its bytes, then their count (R231, R294). DESIGN CHOICE: every write is made whatever the
number of bytes, and the count is its low 32 bits (log entry 22). -/
def loadSession (w : Window) (bytes : ByteSeq) : List Event :=
  loadBytes w 0 bytes ++ [.write (lenAddr w) (BitVec.ofNat 32 bytes.length)]

/-- The key or the plaintext set from a text (R231, R232); log entry 22 for a text too long for its buffer. -/
def loadText (w : Window) (text : List Char) : List Event := loadSession w (textBytes text)

/-- Reads of the first `k` words of a buffer, in rising order (R232, R64). -/
def readWords (w : Window) : Nat → List Event
  | 0 => []
  | k + 1 => readWords w k ++ [.read (BitVec.ofNat 18 (w.base + 4 * k))]

/-- How many words hold `n` bytes. -/
def wordsFor (n : Nat) : Nat := (n + 3) / 4

/-- The first `n` bytes that the host has read, from the replies to `readWords w (wordsFor n)`. -/
def repliedBytes (n : Nat) (replies : List Word) : ByteSeq :=
  ((replies.take (wordsFor n)).reverse.flatMap le32Bytes).take n

/-- The decrypted text as the host reads it back from the replies (R232). -/
def repliedText (n : Nat) (replies : List Word) : Option (List Char) := readText (repliedBytes n replies)

/-- The ciphertext string of the host (R237). -/
def repliedHex (n : Nat) (replies : List Word) : List Char := hexEncode (repliedBytes n replies)

/-- The write of `RUN <command>`, before its POLL (R98): the command's word to CMD. -/
def runCommand (i : Instr) : Event := .write 0x00018#18 (encode i)

/-- `CLEARDONE` (R98). -/
def clearDone : Event := .write 0x00014#18 0x00000002#32

/-- One read of `POLL` (R98): STATUS. -/
def pollStatus : Event := .read 0x00014#18

end Sys2Proof.Machine
end

