-- ==== Sys2Proof/Safety.lean ====
section
/-! DEFINITION. The terms that claims about the machine use: the invariant every step keeps, what a command needs (R205), runs
of several commands, and the closed form of the keystream (R161). -/

namespace Sys2Proof.Machine

open Sys2Proof

/-- What holds of the block in every state a run reaches. -/
structure BlockInv (s : State) : Prop where
  /-- The instance's parameters meet R7. -/
  cfg_ok : s.cfg.wf = true
  /-- The memory list is in its canonical form (log entry 15). -/
  mem_rising : s.mem.wf = true
  /-- Every written byte lies in a buffer, below its capacity (R36, R302). -/
  mem_mapped : ∀ c ∈ s.mem, ∃ w : Window, w.base ≤ c.1 ∧ c.1 < w.base + w.cap s.cfg
  /-- A length register never exceeds its buffer's capacity (R34, R302). -/
  len_fits : ∀ w : Window, (s.lenOf w).toNat ≤ w.cap s.cfg
  /-- A buffer whose valid bit is 0 still has the length of reset (R32, R44). -/
  unset_empty : ∀ w : Window, s.validOf w = false → s.lenOf w = 0
  /-- While BUSY, DONE is 0 and ERRCODE reads 0 (R31, R200). -/
  busy_clear : s.seq = .busy → s.status.done = false ∧ s.status.errCode = .ok
  /-- Code 4 is never produced (R254). -/
  code_real : s.status.errCode ≠ .hashUnavailable
  /-- Each buffer reads from a draw already made (log entry 10). -/
  draws_made : ∀ w : Window, s.drawOf w < s.draws

/-- The command computes on the key (R205). -/
def usesKey : Instr → Bool
  | .hash .key => true
  | .iterhash .key => true
  | .encrypt => true
  | .decrypt => true
  | _ => false

/-- The command's data source other than the key is set (R205). -/
def dataSet (s : State) : Instr → Bool
  | .hash .key => true
  | .iterhash .key => true
  | .hash src => s.srcValid src
  | .iterhash src => s.srcValid src
  | .encrypt => s.status.ptValid
  | .decrypt => s.status.ctValid

/-- The result code R205 and R257 give a command: the key is checked first. -/
def resultCode (s : State) (i : Instr) : ErrCode :=
  if usesKey i && !s.status.keyValid then .keyNotSet
  else if !dataSet s i then .srcNotSet
  else .ok

/-- The engine completes commands one after another, with no host access between them. -/
def execAll : List Instr → State → Out
  | [], s => .next s
  | i :: rest, s =>
    match exec i s with
    | .next t => execAll rest t
    | .fault r => .fault r
    | .refused r => .refused r

/-- `B_k`: each block is derived from the block before it (R161). -/
def keystreamBlock (iterCount : Nat) (key : ByteSeq) : Nat → Digest
  | 0 => iteratedHash iterCount key
  | k + 1 => iteratedHash iterCount (keystreamBlock iterCount key k).toList

/-- `Hash^k` on a 32-byte value (R140). -/
def hashPower : Nat → Digest → Digest
  | 0, d => d
  | k + 1, d => sha256 (hashPower k d).toList

/-- The ten legal command words and what they stand for, as R96 lists them. -/
def legalTable : List (Word × Instr) := [
  (0x00000001, .hash .key), (0x00000101, .hash .pt), (0x00000201, .hash .ct), (0x00000301, .hash .digest),
  (0x00000002, .iterhash .key), (0x00000102, .iterhash .pt), (0x00000202, .iterhash .ct),
  (0x00000302, .iterhash .digest), (0x00000003, .encrypt), (0x00000004, .decrypt)]

/-- The offsets of R22 at which a register stands. -/
def regOffsets : List Nat :=
  [0x00, 0x04, 0x08, 0x0C, 0x10, 0x14, 0x18, 0x20, 0x24, 0x28, 0x40, 0x44, 0x48, 0x4C, 0x50, 0x54, 0x58, 0x5C]

/-- The legal addresses: multiples of 4 that hold a register or a whole word of a buffer (R63, R68). -/
def mapped (c : Config) (addr : Addr) : Prop :=
  addr.toNat ∈ regOffsets ∨ ∃ (w : Window) (k : Nat), addr.toNat = w.base + 4 * k ∧ 4 * k + 3 < w.cap c

/-- What a refused write leaves: ACCERR set and nothing else (R255). -/
def refusedWrite (s : State) : State := { s with status := { s.status with accErr := true } }

end Sys2Proof.Machine
end

