-- ==== Sys2Proof/Certificates/Slice0/Obligations.lean ====
section
/-! DEFINITION. The statements for the provers, in the order of OBLIGATIONS.json. Each docstring names the rule of spec/ that
the statement formalises, or says that it is the model's. -/

open Sys2Proof Sys2Proof.Machine

/-! ### Encoding (30_encoding.md) -/

/-- R94: decoding gives a command exactly on that command's own word, and every command's word decodes to it. -/
def Obligations.DecodeMatchesEncode : Prop :=
  ∀ (w : Word) (i : Instr), decode w = .command i ↔ w = encode i

/-- R96: the legal words are the ten of the table; the word 0 is illegal. -/
def Obligations.LegalWordsAreTheTen : Prop :=
  (∀ (w : Word) (i : Instr), decode w = .command i ↔ (w, i) ∈ legalTable) ∧ ∃ why, decode 0x00000000 = .illegal why

/-- R93, R95: which words are illegal, and that these are all but the ten legal ones. -/
def Obligations.IllegalWordsCharacterised : Prop :=
  ∀ w : Word,
    ((∃ why, decode w = .illegal why) ↔
      (w.extractLsb' 10 22 ≠ 0 ∨ w.extractLsb' 0 8 = 0x00#8 ∨ 0x05#8 ≤ w.extractLsb' 0 8 ∨
        w ∈ [0x00000103#32, 0x00000203#32, 0x00000303#32, 0x00000104#32, 0x00000204#32, 0x00000304#32])) ∧
    ((∃ why, decode w = .illegal why) ↔ ∀ p ∈ legalTable, p.1 ≠ w) ∧
    (w.extractLsb' 10 22 ≠ 0 → ∃ why, decode w = .illegal why) ∧
    ((w.extractLsb' 0 8 = 0x03#8 ∨ w.extractLsb' 0 8 = 0x04#8) → w.extractLsb' 8 2 ≠ 0 → ∃ why, decode w = .illegal why)

/-- R99: the encoding examples. -/
def Obligations.EncodingExamples : Prop :=
  splitWord 0x00000302 = ⟨0x02, 3, 0⟩ ∧ encode (.iterhash .digest) = (3#32 <<< 8) ||| 0x02#32 ∧
    encode (.iterhash .digest) = 0x00000302 ∧ decode 0x00000302 = .command (.iterhash .digest) ∧
    encode (.hash .pt) = 0x00000101 ∧ decode 0x00000101 = .command (.hash .pt) ∧
    ∃ why, decode 0x00000403 = .illegal why

/-- R92: what each SRC selector reads, and the valid bit it needs. -/
def Obligations.SourceSelectorTable : Prop :=
  ∀ s : State,
    (srcOfBits 0#2 = .key ∧ s.srcBytes .key = (List.range s.keyLen.toNat).map (s.bufByte .key) ∧
      s.srcValid .key = s.status.keyValid) ∧
    (srcOfBits 1#2 = .pt ∧ s.srcBytes .pt = (List.range s.ptLen.toNat).map (s.bufByte .pt) ∧
      s.srcValid .pt = s.status.ptValid) ∧
    (srcOfBits 2#2 = .ct ∧ s.srcBytes .ct = (List.range s.ctLen.toNat).map (s.bufByte .ct) ∧
      s.srcValid .ct = s.status.ctValid) ∧
    (srcOfBits 3#2 = .digest ∧ s.srcBytes .digest = s.digest.toList ∧ s.srcValid .digest = s.status.digestValid)

/-! ### The step and the engine (44_command_sequencer.md) -/

/-- R202, R204: while BUSY, the engine's turn is the execution of the command CUR_CMD decodes to, on the state whose turn it is.
That the engine also moves when no event is left is the model's (log entry 4). -/
def Obligations.EngineStepRunsDecodedCommand : Prop :=
  ∀ (s : State) (i : Instr), s.seq = .busy → decode s.curCmd = .command i →
    (s.events = [] → step s = exec i s) ∧
    ∀ rest, s.events = .engine :: rest → step s = exec i { s with events := rest }

/-- A table row's word placed by `withFetchWord` is the command the very next step runs, on the state in which that word has
just been accepted (R200, R204; log entry 5). -/
def Obligations.PlacedWordRunsNext : Prop :=
  ∀ (s : State) (nbits w : Nat) (i : Instr), decodeTableWord nbits w = some i →
    step (s.withFetchWord nbits w) = exec i (accept (tableWord nbits w) s)

/-- HASH with its source set (R122): one application of the hash, OK, and nothing else changes. That CUR_CMD keeps its value
after the completion is the model's choice (log entry 11). -/
def Obligations.HashCompletes : Prop :=
  ∀ (s : State) (src : Src), s.srcValid src = true →
    exec (.hash src) s = .next { s with
      digest := sha256 (s.srcBytes src)
      seq := .idle
      status := { s.status with digestValid := true, done := true, errCode := .ok } }

/-- ITERHASH with its source set (R143): ITER_COUNT applications of the hash, OK, and nothing else changes. That CUR_CMD keeps
its value after the completion is the model's choice (log entry 11). -/
def Obligations.IterhashCompletes : Prop :=
  ∀ (s : State) (src : Src), s.srcValid src = true →
    exec (.iterhash src) s = .next { s with
      digest := iteratedHash s.cfg.iterCount (s.srcBytes src)
      seq := .idle
      status := { s.status with digestValid := true, done := true, errCode := .ok } }

/-- ENCRYPT with key and plaintext set (R180): every output byte, the length and the STATUS fields. Bytes beyond the new length
are a fresh draw (R182; log entry 8), whatever value the free byte has. -/
def Obligations.EncryptCompletes : Prop :=
  ∀ s : State, s.status.keyValid = true → s.status.ptValid = true →
    ∃ t, exec .encrypt s = .next t ∧
      t.ctLen = s.ptLen ∧ t.seq = .idle ∧
      t.status = { s.status with ctValid := true, done := true, errCode := .ok } ∧
      (∀ i < s.ptLen.toNat, t.bufByte .ct i =
        s.bufByte .pt i ^^^ (deriveKeystream s.cfg.iterCount (s.session .key) s.ptLen.toNat).getD i 0) ∧
      ∀ i, s.ptLen.toNat ≤ i → i < Window.size → t.bufByte .ct i = Config.freeByte s.draws (Window.ct.base + i)

/-- DECRYPT with key and ciphertext set (R181): as ENCRYPT with the buffers exchanged (log entry 8 for the bytes beyond). -/
def Obligations.DecryptCompletes : Prop :=
  ∀ s : State, s.status.keyValid = true → s.status.ctValid = true →
    ∃ t, exec .decrypt s = .next t ∧
      t.ptLen = s.ctLen ∧ t.seq = .idle ∧
      t.status = { s.status with ptValid := true, done := true, errCode := .ok } ∧
      (∀ i < s.ctLen.toNat, t.bufByte .pt i =
        s.bufByte .ct i ^^^ (deriveKeystream s.cfg.iterCount (s.session .key) s.ctLen.toNat).getD i 0) ∧
      ∀ i, s.ctLen.toNat ≤ i → i < Window.size → t.bufByte .pt i = Config.freeByte s.draws (Window.pt.base + i)

/-- Frame of HASH and ITERHASH (R122, R143: no buffer, length or other valid bit changes), whatever they end with. That CUR_CMD
keeps its value after the completion is the model's choice (log entry 11). -/
def Obligations.HashCommandsFrame : Prop :=
  ∀ (s t : State) (i : Instr) (src : Src), (i = .hash src ∨ i = .iterhash src) → exec i s = .next t →
    (∀ w j, t.bufByte w j = s.bufByte w j) ∧ (∀ w, t.lenOf w = s.lenOf w ∧ t.validOf w = s.validOf w) ∧
    t.mem = s.mem ∧ t.status.accErr = s.status.accErr ∧ t.ctrlIE = s.ctrlIE ∧ t.curCmd = s.curCmd ∧ t.cfg = s.cfg ∧
    t.events = s.events ∧ t.replies = s.replies ∧ t.draws = s.draws

/-- R183: ENCRYPT changes nothing but CTMEM, CT_LEN, CT_VALID and the STATUS fields of every command; DECRYPT nothing but
PTMEM, PT_LEN, PT_VALID and those. The invariant rules out the lengths above capacity that no run reaches. That the idle
block still holds CUR_CMD is the model's choice (log entry 11). -/
def Obligations.TransformFrame : Prop :=
  ∀ (s t : State), BlockInv s →
    (exec .encrypt s = .next t →
      (∀ w, w ≠ .ct → (∀ i < w.cap s.cfg, t.bufByte w i = s.bufByte w i) ∧ t.lenOf w = s.lenOf w ∧ t.validOf w = s.validOf w) ∧
      t.digest = s.digest ∧ t.status.digestValid = s.status.digestValid ∧ t.status.accErr = s.status.accErr ∧
      t.ctrlIE = s.ctrlIE ∧ t.curCmd = s.curCmd ∧ t.cfg = s.cfg ∧ t.events = s.events ∧ t.replies = s.replies) ∧
    (exec .decrypt s = .next t →
      (∀ w, w ≠ .pt → (∀ i < w.cap s.cfg, t.bufByte w i = s.bufByte w i) ∧ t.lenOf w = s.lenOf w ∧ t.validOf w = s.validOf w) ∧
      t.digest = s.digest ∧ t.status.digestValid = s.status.digestValid ∧ t.status.accErr = s.status.accErr ∧
      t.ctrlIE = s.ctrlIE ∧ t.curCmd = s.curCmd ∧ t.cfg = s.cfg ∧ t.events = s.events ∧ t.replies = s.replies)

/-- R206: a command that ends in error changes no state except BUSY, DONE and ERRCODE. That the idle block still holds CUR_CMD
is the model's choice (log entry 11). -/
def Obligations.FailedCommandChangesOnlyStatus : Prop :=
  ∀ s t : State, s.seq = .busy → engineTurn s = .next t → t.status.errCode ≠ .ok →
    t = { s with seq := .idle, status := { s.status with done := true, errCode := t.status.errCode } }

/-- R257: the order of the checks. -/
def Obligations.ErrorPrecedence : Prop :=
  ∀ s t : State, s.seq = .busy → engineTurn s = .next t →
    (∀ why, decode s.curCmd = .illegal why → t.status.errCode = .illegalCmd) ∧
    (∀ i, decode s.curCmd = .command i →
      (usesKey i = true → s.status.keyValid = false → t.status.errCode = .keyNotSet) ∧
      ((usesKey i = true → s.status.keyValid = true) → dataSet s i = false → t.status.errCode = .srcNotSet) ∧
      ((usesKey i = true → s.status.keyValid = true) → dataSet s i = true → t.status.errCode = .ok)) ∧
    (decode s.curCmd = .command .encrypt → s.status.keyValid = false → s.status.ptValid = false →
      t.status.errCode = .keyNotSet)

/-- R251: every illegal word completes with ILLEGAL_CMD; nothing but STATUS (and the latch) changes from before its
acceptance. That the idle block still holds the latched word is the model's choice (log entry 11). -/
def Obligations.IllegalCommandReports : Prop :=
  ∀ (s : State) (w : Word),
    (w.extractLsb' 10 22 ≠ 0 ∨ (w.extractLsb' 0 8 = 0x00#8 ∨ 0x05#8 ≤ w.extractLsb' 0 8) ∨
      (w.extractLsb' 8 2 ≠ 0 ∧ (w.extractLsb' 0 8 = 0x03#8 ∨ w.extractLsb' 0 8 = 0x04#8))) →
    engineTurn (accept w s) = .next { s with
      curCmd := w
      seq := .idle
      status := { s.status with done := true, errCode := .illegalCmd } }

/-- R202: the engine's turn on a running command always completes it; IRQ is then CTRL.IE, and ACCERR is untouched. That CUR_CMD
keeps its value after the completion is the model's choice (log entry 11). -/
def Obligations.EngineTurnCompletes : Prop :=
  ∀ s : State, s.seq = .busy →
    ∃ t, engineTurn s = .next t ∧ t.seq = .idle ∧ t.status.done = true ∧ t.irq = s.ctrlIE ∧ t.ctrlIE = s.ctrlIE ∧
      t.status.accErr = s.status.accErr ∧ t.curCmd = s.curCmd ∧ t.cfg = s.cfg ∧ t.events = s.events ∧ t.replies = s.replies

/-- R200: acceptance of a command word, legal or not. -/
def Obligations.CommandAccepted : Prop :=
  ∀ (s : State) (w : Word), s.seq = .idle →
    memWrite 0x00018 w s =
      { s with curCmd := w, seq := .busy, status := { s.status with done := false, errCode := .ok } } ∧
    (memWrite 0x00018 w s).irq = false ∧ (memWrite 0x00018 w s).busy = true

/-- R201: a CMD write while BUSY is refused and not queued. -/
def Obligations.SecondCommandRefused : Prop :=
  ∀ (s : State) (w : Word), s.seq = .busy → memWrite 0x00018 w s = refusedWrite s

/-- R207, with the model's event list for the schedule (log entry 4): from a running command, with no reset still to come, some
step no later than the end of the events completes it. -/
def Obligations.AcceptedCommandEventuallyCompletes : Prop :=
  ∀ s : State, s.seq = .busy → Event.reset ∉ s.events →
    ∃ (k : Nat) (t : State), k ≤ s.events.length + 1 ∧ Host.Core.run Sys2Proof.core k s = .next t ∧ t.seq = .idle ∧
      t.status.done = true

/-- R203: while BUSY no host access changes the running command or anything it computes on. -/
def Obligations.OperandsFixedWhileBusy : Prop :=
  ∀ (s t : State) (e : Event), s.seq = .busy → e ≠ .engine → e ≠ .reset → perform e s = .next t →
    t.seq = .busy ∧ t.curCmd = s.curCmd ∧ t.cfg = s.cfg ∧ t.digest = s.digest ∧
    t.status.digestValid = s.status.digestValid ∧
    ∀ w, (∀ j, t.bufByte w j = s.bufByte w j) ∧ t.lenOf w = s.lenOf w ∧ t.validOf w = s.validOf w ∧
      t.session w = s.session w

/-! ### Registers and the bus (10_state.md, 20_memory.md) -/

/-- R24, R25: the identification registers read constants, at any time, and writes are refused. -/
def Obligations.IdentificationRegisters : Prop :=
  ∀ s : State, s.cfg.wf = true →
    memRead 0x00000 s = { s with replies := 0x57434B01#32 :: s.replies } ∧
    memRead 0x00008 s = { s with replies := s.regWord .keyCap :: s.replies } ∧
    memRead 0x0000C s = { s with replies := s.regWord .dataCap :: s.replies } ∧
    ((s.regWord .keyCap).extractLsb' 0 17).toNat = s.cfg.keyMax ∧ (s.regWord .keyCap).extractLsb' 17 15 = 0 ∧
    ((s.regWord .dataCap).extractLsb' 0 17).toNat = s.cfg.dataMax ∧ (s.regWord .dataCap).extractLsb' 17 15 = 0 ∧
    (s.cfg = Config.production → s.regWord .keyCap = 0x00000100 ∧ s.regWord .dataCap = 0x00001000) ∧
    ∀ v, memWrite 0x00000 v s = refusedWrite s ∧ memWrite 0x00008 v s = refusedWrite s ∧
      memWrite 0x0000C v s = refusedWrite s

/-- R23: the fields of CFG, at any time. -/
def Obligations.ConfigRegisterFields : Prop :=
  ∀ s : State, s.cfg.wf = true →
    memRead 0x00004 s = { s with replies := s.regWord .cfg :: s.replies } ∧
    ((s.regWord .cfg).extractLsb' 0 16).toNat = s.cfg.iterCount ∧ (s.regWord .cfg).extractLsb' 16 8 = 0x20#8 ∧
    (s.regWord .cfg).extractLsb' 24 8 = 1#8 ∧
    (s.cfg = Config.production → s.regWord .cfg = 0x012000F2) ∧
    ∀ v, memWrite 0x00004 v s = refusedWrite s

/-- R69: writes to the read-only registers are refused, and a read of CMD gives 0 and raises nothing. -/
def Obligations.ReadOnlyWritesRefused : Prop :=
  (∀ (s : State) (a : Addr) (v : Word),
    (a = 0x00000 ∨ a = 0x00004 ∨ a = 0x00008 ∨ a = 0x0000C ∨ ∃ k : Fin 8, a.toNat = 0x40 + 4 * k.val) →
    memWrite a v s = refusedWrite s) ∧
  ∀ s : State, memRead 0x00018 s = { s with replies := 0 :: s.replies }

/-- R26, R27, R43: where STATUS and CTRL hold each field, that the reserved bits of STATUS, CTRL and the length registers read 0,
and that a write of CTRL or STATUS ignores them. A read of these registers, in any sequencer state, answers that value and
changes nothing (R61, R70, R71). -/
def Obligations.StatusLayoutAndReservedBits : Prop :=
  ∀ s : State,
    (s.regWord .status).getLsbD 0 = s.busy ∧ (s.regWord .status).getLsbD 1 = s.status.done ∧
    (s.regWord .status).getLsbD 2 = s.status.accErr ∧ (s.regWord .status).extractLsb' 8 4 = s.status.errCode.bits ∧
    (s.regWord .status).getLsbD 16 = s.status.keyValid ∧ (s.regWord .status).getLsbD 17 = s.status.ptValid ∧
    (s.regWord .status).getLsbD 18 = s.status.ctValid ∧ (s.regWord .status).getLsbD 19 = s.status.digestValid ∧
    (s.regWord .status).extractLsb' 3 5 = 0 ∧ (s.regWord .status).extractLsb' 12 4 = 0 ∧
    (s.regWord .status).extractLsb' 20 12 = 0 ∧ (s.regWord .ctrl).extractLsb' 1 31 = 0 ∧
    (∀ w, (s.regWord (.len w)).extractLsb' 17 15 = 0) ∧ (s.regWord .ctrl).getLsbD 0 = s.ctrlIE ∧
    (∀ w, (s.regWord (.len w)).extractLsb' 0 17 = s.lenOf w) ∧
    memRead 0x00010 s = { s with replies := s.regWord .ctrl :: s.replies } ∧
    memRead 0x00014 s = { s with replies := s.regWord .status :: s.replies } ∧
    (∀ w, memRead (lenAddr w) s = { s with replies := s.regWord (.len w) :: s.replies }) ∧
    ∀ v : Word, memWrite 0x00010 v s = memWrite 0x00010 (v &&& 1#32) s ∧
      memWrite 0x00014 v s = memWrite 0x00014 (v &&& 6#32) s

/-- R27: a STATUS write is never refused and clears DONE and ACCERR alone, in any sequencer state. R26: a CTRL write, in any
sequencer state, sets IE from bit 0 and changes nothing else. -/
def Obligations.StatusWriteClears : Prop :=
  ∀ (s : State) (v : Word),
    memWrite 0x00014 v s = { s with status := { s.status with
      done := if v.getLsbD 1 then false else s.status.done
      accErr := if v.getLsbD 2 then false else s.status.accErr } } ∧
    memWrite 0x00010 v s = { s with ctrlIE := v.getLsbD 0 } ∧
    ((memWrite 0x00010 v s).regWord .ctrl).getLsbD 0 = v.getLsbD 0

/-- R42: IRQ equals CTRL.IE AND STATUS.DONE, read from the registers' own bits. -/
def Obligations.IrqIsEnableAndDone : Prop :=
  ∀ s : State, s.irq = ((s.regWord .ctrl).getLsbD 0 && (s.regWord .status).getLsbD 1)

/-- R260, R261: what raises and what ends the interrupt; and a DONE-clearing write before the completion does not lose it (the
order that stands for the same cycle, log entry 12). -/
def Obligations.InterruptLifeCycle : Prop :=
  ∀ (s : State) (v : Word),
    (v.getLsbD 1 = true → (memWrite 0x00014 v s).irq = false) ∧
    (s.seq = .idle → (memWrite 0x00018 v s).irq = false) ∧
    (v.getLsbD 0 = false → (memWrite 0x00010 v s).irq = false) ∧
    (s.status.done = true → v.getLsbD 0 = true → (memWrite 0x00010 v s).irq = true) ∧
    (s.seq = .busy → ∃ t, engineTurn (memWrite 0x00014 v s) = .next t ∧ t.status.done = true ∧ t.irq = s.ctrlIE)

/-- R34, R36: a write of a length register; no byte of any buffer changes, written or not. -/
def Obligations.LengthRegisterWrite : Prop :=
  ∀ (s : State) (w : Window) (v : Word), s.cfg.wf = true →
    (s.seq = .busy → memWrite (lenAddr w) v s = refusedWrite s) ∧
    (s.seq = .idle → w.cap s.cfg < v.toNat → memWrite (lenAddr w) v s = refusedWrite s) ∧
    (s.seq = .idle → v.toNat ≤ w.cap s.cfg →
      ((memWrite (lenAddr w) v s).lenOf w).toNat = v.toNat ∧ (memWrite (lenAddr w) v s).validOf w = true ∧
      (memWrite (lenAddr w) v s).regWord (.len w) = v ∧
      (∀ u, u ≠ w → (memWrite (lenAddr w) v s).lenOf u = s.lenOf u ∧ (memWrite (lenAddr w) v s).validOf u = s.validOf u) ∧
      (∀ u i, (memWrite (lenAddr w) v s).bufByte u i = s.bufByte u i) ∧
      (memWrite (lenAddr w) v s).mem = s.mem ∧ (memWrite (lenAddr w) v s).digest = s.digest ∧
      (memWrite (lenAddr w) v s).seq = .idle ∧ (memWrite (lenAddr w) v s).ctrlIE = s.ctrlIE ∧
      (memWrite (lenAddr w) v s).status.done = s.status.done ∧
      (memWrite (lenAddr w) v s).status.accErr = s.status.accErr ∧
      (memWrite (lenAddr w) v s).status.errCode = s.status.errCode ∧
      (memWrite (lenAddr w) v s).status.digestValid = s.status.digestValid)

/-- R61, R62, R64: a buffer word written while IDLE lands little-endian in the four bytes it names, nothing else changes, and
reading it back gives the same word. A read while IDLE answers the four bytes it names, little-endian, whoever wrote them (R75). -/
def Obligations.BufferWordWriteThenRead : Prop :=
  ∀ (s : State) (a : Addr) (w : Window) (k : Nat) (v : Word), s.cfg.wf = true → s.seq = .idle →
    a.toNat = w.base + 4 * k → 4 * k + 3 < w.cap s.cfg →
    (∀ j < 4, (memWrite a v s).bufByte w (4 * k + j) = v.extractLsb' (8 * j) 8) ∧
    (∀ u i, i < u.cap s.cfg → ¬(u = w ∧ 4 * k ≤ i ∧ i < 4 * k + 4) → (memWrite a v s).bufByte u i = s.bufByte u i) ∧
    memWrite a v s = { s with mem := (memWrite a v s).mem } ∧
    memRead a (memWrite a v s) = { memWrite a v s with replies := v :: s.replies } ∧
    ∃ d : Word, memRead a s = { s with replies := d :: s.replies } ∧
      ∀ j < 4, d.extractLsb' (8 * j) 8 = s.bufByte w (4 * k + j)

/-- R65: DIGESTk, read while IDLE, holds bytes 4k to 4k+3 of DIGEST, the first in bits 7:0. -/
def Obligations.DigestWordLanes : Prop :=
  ∀ (s : State) (a : Addr) (k : Fin 8), s.seq = .idle → a.toNat = 0x40 + 4 * k.val →
    ∃ d : Word, memRead a s = { s with replies := d :: s.replies } ∧
      ∀ j < 4, d.extractLsb' (8 * j) 8 = s.digest.toList.getD (4 * k.val + j) 0

/-- R70: the busy lockout. The unspecified word is any word; that each such read moves the draw counter by one is the model's
form of a fresh draw (log entry 9). -/
def Obligations.BusyLockout : Prop :=
  ∀ s : State, s.cfg.wf = true → s.seq = .busy →
    (∀ (w : Window) (k : Nat) (a : Addr), a.toNat = w.base + 4 * k → 4 * k + 3 < w.cap s.cfg →
      (∀ v, memWrite a v s = refusedWrite s) ∧
      ∃ d, memRead a s = { s with replies := d :: s.replies, draws := s.draws + 1 }) ∧
    (∀ w v, memWrite (lenAddr w) v s = refusedWrite s) ∧
    (∀ v, memWrite 0x00018 v s = refusedWrite s) ∧
    (∀ (k : Fin 8) (a : Addr), a.toNat = 0x40 + 4 * k.val →
      ∃ d, memRead a s = { s with replies := d :: s.replies, draws := s.draws + 1 }) ∧
    (∀ p ∈ [((0x00000 : Addr), Reg.id), (0x00004, .cfg), (0x00008, .keyCap), (0x0000C, .dataCap), (0x00010, .ctrl),
        (0x00014, .status), (0x00020, .len .key), (0x00024, .len .pt), (0x00028, .len .ct)],
      memRead p.1 s = { s with replies := s.regWord p.2 :: s.replies }) ∧
    ∀ v : Word, memWrite 0x00010 v s = { s with ctrlIE := v.getLsbD 0 } ∧
      memWrite 0x00014 v s = { s with status := { s.status with
        done := s.status.done && !v.getLsbD 1
        accErr := s.status.accErr && !v.getLsbD 2 } }

/-- R68, R255: a misaligned or unmapped access sets ACCERR; the read returns 0, the write changes nothing. A legal read raises
nothing. -/
def Obligations.IllegalAddressesRefused : Prop :=
  ∀ (s : State) (a : Addr), s.cfg.wf = true →
    ((a.toNat % 4 ≠ 0 ∨ ¬mapped s.cfg a) →
      memRead a s = { refusedWrite s with replies := 0 :: s.replies } ∧ ∀ v, memWrite a v s = refusedWrite s) ∧
    (mapped s.cfg a → (memRead a s).status = s.status)

/-- R71: a read changes nothing but ACCERR when it is refused (beside the reply, and the model's draw counter of log entry 9, which
never goes back and stands still while IDLE): at a legal address ACCERR is as before, at any other it is 1. While IDLE a second read returns
the same word. -/
def Obligations.ReadsHaveNoSideEffect : Prop :=
  ∀ (s : State) (a : Addr),
    (∃ (d : Word) (n : Nat), s.draws ≤ n ∧ (s.seq = .idle → n = s.draws) ∧ memRead a s = { s with
      replies := d :: s.replies
      draws := n
      status := { s.status with accErr := (memRead a s).status.accErr } }) ∧
    (s.status.accErr = true → (memRead a s).status.accErr = true) ∧
    (s.cfg.wf = true →
      (mapped s.cfg a → (memRead a s).status.accErr = s.status.accErr) ∧
      (¬mapped s.cfg a → (memRead a s).status.accErr = true)) ∧
    (s.seq = .idle → (memRead a (memRead a s)).replies.head? = (memRead a s).replies.head?)

/-- R39: writing one buffer or its length changes no other buffer, length or valid bit; HASH and ITERHASH change none. -/
def Obligations.SessionsIndependent : Prop :=
  ∀ (s : State) (v : Word) (w u : Window), s.cfg.wf = true → u ≠ w →
    (∀ (a : Addr) (k : Nat), a.toNat = w.base + 4 * k → 4 * k + 3 < w.cap s.cfg →
      (∀ i < u.cap s.cfg, (memWrite a v s).bufByte u i = s.bufByte u i) ∧
      (memWrite a v s).lenOf u = s.lenOf u ∧ (memWrite a v s).validOf u = s.validOf u) ∧
    ((∀ i < u.cap s.cfg, (memWrite (lenAddr w) v s).bufByte u i = s.bufByte u i) ∧
      (memWrite (lenAddr w) v s).lenOf u = s.lenOf u ∧ (memWrite (lenAddr w) v s).validOf u = s.validOf u) ∧
    ∀ (i : Instr) (t : State), i ≠ .encrypt → i ≠ .decrypt → exec i s = .next t →
      (∀ j, t.bufByte u j = s.bufByte u j) ∧ t.lenOf u = s.lenOf u ∧ t.validOf u = s.validOf u

/-- R32: a valid bit, once 1, stays 1 through every event but reset. -/
def Obligations.ValidBitsStick : Prop :=
  ∀ (s t : State) (e : Event), e ≠ .reset → perform e s = .next t →
    (∀ w, s.validOf w = true → t.validOf w = true) ∧ (s.status.digestValid = true → t.status.digestValid = true)

/-! ### The hash core, the iterated hash and the keystream (40 to 43) -/

/-- R111: padding. -/
def Obligations.ShaPadding : Prop :=
  ∀ m : ByteSeq, ∃ z : Nat, (z : Int) = (55 - (m.length : Int)) % 64 ∧ z ≤ 63 ∧
    shaPad m = m ++ [0x80#8] ++ List.replicate z 0x00#8 ++ be64Bytes (8 * m.length) ∧
    (shaPad m).length = m.length + 9 + z ∧ 64 ∣ (shaPad m).length

/-- R120: the number of blocks the core processes is the number of blocks of the padded message. -/
def Obligations.ShaBlockCount : Prop :=
  (∀ m : ByteSeq, (shaPad m).length = 64 * shaBlockCount m.length) ∧
    (∀ n, shaBlockCount n = (n + 8) / 64 + 1) ∧ (∀ n ≤ 55, shaBlockCount n = 1) ∧
    (∀ n, 56 ≤ n → n ≤ 119 → shaBlockCount n = 2) ∧ shaBlockCount 32 = 1 ∧ shaBlockCount 0 = 1

/-- R116: the message schedule, word by word. -/
def Obligations.ShaScheduleRecurrence : Prop :=
  ∀ block : ByteSeq, (shaSchedule block).length = 64 ∧
    (∀ t < 16, (shaSchedule block).getD t 0 =
      be32 (block.getD (4 * t) 0) (block.getD (4 * t + 1) 0) (block.getD (4 * t + 2) 0) (block.getD (4 * t + 3) 0)) ∧
    ∀ t, 16 ≤ t → t < 64 → (shaSchedule block).getD t 0 =
      smallSigma1 ((shaSchedule block).getD (t - 2) 0) + (shaSchedule block).getD (t - 7) 0 +
        smallSigma0 ((shaSchedule block).getD (t - 15) 0) + (shaSchedule block).getD (t - 16) 0

/-- R119: the digest is the eight words in order, each most significant byte first. -/
def Obligations.ShaOutputBytes : Prop :=
  ∀ hv : Words8,
    (shaOutput hv).toList = be32Bytes hv.a ++ be32Bytes hv.b ++ be32Bytes hv.c ++ be32Bytes hv.d ++ be32Bytes hv.e ++
      be32Bytes hv.f ++ be32Bytes hv.g ++ be32Bytes hv.h ∧
    (∀ w : Word, be32Bytes w = [w.extractLsb' 24 8, w.extractLsb' 16 8, w.extractLsb' 8 8, w.extractLsb' 0 8]) ∧
    (shaOutput hv).toList.getD 0 0 = hv.a.extractLsb' 24 8 ∧ (shaOutput hv).toList.getD 31 0 = hv.h.extractLsb' 0 8

/-- R140, R141: `iteratedHash` is the ITER_COUNT-fold application of the hash, never one more or one fewer; the production
instance has 242. -/
def Obligations.IteratedHashIsHashPower : Prop :=
  (∀ (n : Nat) (seed : ByteSeq), 1 ≤ n → iteratedHash n seed = hashPower (n - 1) (sha256 seed)) ∧
    (∀ seed, iteratedHash 1 seed = sha256 seed) ∧ (∀ seed, iteratedHash 2 seed = sha256 (sha256 seed).toList) ∧
    (∀ seed, iteratedHash Config.production.iterCount seed = hashPower 241 (sha256 seed)) ∧
    Config.production.iterCount = 242

/-- R123: `HASH DIGEST` is in place, and repeated `k` times after `HASH KEY` leaves `Hash^(k+1)(Key)`; with `k + 1` the
ITER_COUNT that is `iteratedHash(Key)`. -/
def Obligations.HashDigestRepeats : Prop :=
  (∀ s : State, s.status.digestValid = true →
    ∃ t, exec (.hash .digest) s = .next t ∧ t.digest = sha256 s.digest.toList) ∧
  ∀ (s : State) (k : Nat), s.status.keyValid = true →
    ∃ t, execAll (.hash .key :: List.replicate k (.hash .digest)) s = .next t ∧
      t.digest = hashPower k (sha256 (s.session .key)) ∧
      (k + 1 = s.cfg.iterCount → t.digest = iteratedHash s.cfg.iterCount (s.session .key))

/-- R161: the closed form of the keystream. -/
def Obligations.KeystreamClosedForm : Prop :=
  ∀ (iters : Nat) (key : ByteSeq) (n i : Nat), i < n →
    (deriveKeystream iters key n)[i]? = some ((keystreamBlock iters key (i / 32)).toList.getD (i % 32) 0)

/-- R162: the keystream has exactly the length asked for, and the last block is used up to byte `(L - 1) mod 32`. -/
def Obligations.KeystreamLength : Prop :=
  ∀ (iters : Nat) (key : ByteSeq) (n : Nat),
    (deriveKeystream iters key n).length = n ∧ deriveKeystream iters key 0 = [] ∧
    (0 < n → (deriveKeystream iters key n).getLast? =
      some ((keystreamBlock iters key ((n - 1) / 32)).toList.getD ((n - 1) % 32) 0))

/-- R163: the prefix property. -/
def Obligations.KeystreamPrefix : Prop :=
  ∀ (iters : Nat) (key : ByteSeq) (m n : Nat), m ≤ n →
    deriveKeystream iters key m = (deriveKeystream iters key n).take m

/-- R168: a longer keystream gives the same output. -/
def Obligations.KeystreamSizingChangesNothing : Prop :=
  ∀ (iters : Nat) (key data : ByteSeq) (n : Nat), data.length ≤ n →
    xorBytes data (deriveKeystream iters key n) = transform iters key data

/-- R185: the transform is byte-serial. -/
def Obligations.TransformIsByteSerial : Prop :=
  ∀ (a b k l : ByteSeq) (i : Nat), i < a.length → i < k.length →
    (xorBytes a k)[i]? = some (a.getD i 0 ^^^ k.getD i 0) ∧
    (a[i]? = b[i]? → k[i]? = l[i]? → (xorBytes a k)[i]? = (xorBytes b l)[i]?)

/-- R164: the chain property of the keystream, and on the block: ENCRYPT of 64 zero bytes leaves in the ciphertext buffer what
`ITERHASH KEY` and then `ITERHASH DIGEST` give. -/
def Obligations.KeystreamChain : Prop :=
  (∀ (iters : Nat) (key : ByteSeq),
    (deriveKeystream iters key 64).take 32 = (iteratedHash iters key).toList ∧
    (deriveKeystream iters key 64).drop 32 = (iteratedHash iters ((deriveKeystream iters key 64).take 32)).toList) ∧
  ∀ s : State, s.status.keyValid = true → s.status.ptValid = true → s.ptLen = 64#17 → (∀ i < 64, s.bufByte .pt i = 0) →
    (s.lenOf .key).toNat ≤ Window.size →
    ∃ t u v, exec .encrypt s = .next t ∧ exec (.iterhash .key) t = .next u ∧ exec (.iterhash .digest) u = .next v ∧
      (t.bufBytes .ct 64).take 32 = u.digest.toList ∧ (t.bufBytes .ct 64).drop 32 = v.digest.toList

/-- R184: the five properties of ENCRYPT and DECRYPT with the same key. The invariant rules out the lengths above capacity that
no run reaches. -/
def Obligations.TransformRoundTrip : Prop :=
  ∀ s : State, BlockInv s → s.status.keyValid = true →
    (s.status.ptValid = true → ∃ t u v, exec .encrypt s = .next t ∧ exec .decrypt t = .next u ∧ exec .encrypt t = .next v ∧
      u.session .pt = s.session .pt ∧ u.ptLen = s.ptLen ∧ v.session .ct = t.session .ct ∧ t.ctLen = s.ptLen ∧
      ((∀ i < s.ptLen.toNat, s.bufByte .pt i = 0) →
        t.bufBytes .ct s.ptLen.toNat = deriveKeystream s.cfg.iterCount (s.session .key) s.ptLen.toNat)) ∧
    (s.status.ctValid = true → ∃ t u, exec .decrypt s = .next t ∧ exec .encrypt t = .next u ∧
      u.session .ct = s.session .ct ∧ u.ctLen = s.ctLen ∧ t.ptLen = s.ctLen)

/-- R165: what ENCRYPT leaves as the Ciphertext depends on the Key, the Plaintext and ITER_COUNT alone: two states that agree on
these get the same Ciphertext, whatever their DIGEST, old Ciphertext, other STATUS fields and draws. -/
def Obligations.CiphertextDependsOnKeyAndPlaintextOnly : Prop :=
  ∀ s r t u : State, s.cfg.iterCount = r.cfg.iterCount → s.session .key = r.session .key → s.session .pt = r.session .pt →
    s.status.keyValid = true → r.status.keyValid = true → s.status.ptValid = true → r.status.ptValid = true →
    exec .encrypt s = .next t → exec .encrypt r = .next u →
    t.session .ct = u.session .ct ∧ t.ctLen = u.ctLen

/-! ### Reset (70_reset_and_hazards.md) -/

/-- R290: the reset step sets every register and field to its reset value; the identification registers are constants. R37, R292:
every buffer byte and DIGEST byte is an unspecified one, whatever was written before; that it is the free byte of a fresh draw is
the model's form of it (log entries 6 and 7). -/
def Obligations.ResetStepClears : Prop :=
  ∀ s : State, ∃ t, perform .reset s = .next t ∧ t.seq = .idle ∧ t.regWord .ctrl = 0 ∧ t.regWord .status = 0 ∧
    (∀ w, t.regWord (.len w) = 0 ∧ t.validOf w = false) ∧ t.status.digestValid = false ∧ t.irq = false ∧
    t.regWord .id = s.regWord .id ∧ t.regWord .cfg = s.regWord .cfg ∧ t.regWord .keyCap = s.regWord .keyCap ∧
    t.regWord .dataCap = s.regWord .dataCap ∧
    (∀ w i, t.bufByte w i = Config.freeByte s.draws (w.base + i)) ∧
    (∀ k < 32, t.digest.toList.getD k 0 = Config.freeByte s.draws (0x40 + k)) ∧ s.draws < t.draws

/-- R291: reset ends a running command with none of its effects and no completion follows; nothing else but the completion
stops a command. -/
def Obligations.ResetEndsRunningCommand : Prop :=
  ∀ s : State, s.seq = .busy →
    (∃ t, perform .reset s = .next t ∧ t.seq = .idle ∧ t.status.done = false ∧ t.irq = false ∧
      (∀ w, t.lenOf w = 0 ∧ t.validOf w = false) ∧ t.status.digestValid = false ∧
      (∀ c, perform .reset { s with curCmd := c, seq := .idle } = .next t) ∧ engineTurn t = .next t) ∧
    ∀ e u, perform e s = .next u → u.seq = .idle → e = .reset ∨ (e = .engine ∧ u.status.done = true)

/-- R44: the registers after reset in the production build of the reference instance (that State.reset is this instance: log
entry 2). -/
def Obligations.ResetRegisterValues : Prop :=
  State.reset.regWord .id = 0x57434B01 ∧ State.reset.regWord .cfg = 0x012000F2 ∧
    State.reset.regWord .keyCap = 0x00000100 ∧ State.reset.regWord .dataCap = 0x00001000 ∧
    State.reset.regWord .ctrl = 0 ∧ State.reset.regWord .status = 0 ∧ State.reset.regWord .cmd = 0 ∧
    (∀ w, State.reset.regWord (.len w) = 0) ∧ State.reset.seq = .idle ∧ State.reset.irq = false

/-- R293, R81: an idle block takes no step of its own: with nothing on the bus it stays as it is (log entry 4). -/
def Obligations.IdleBlockWaits : Prop :=
  (∀ s : State, s.seq = .idle → s.events = [] → step s = .next s) ∧
    (∀ (s : State) (rest : List Event), s.seq = .idle → s.events = .engine :: rest → step s = .next { s with events := rest }) ∧
    step State.reset = .next State.reset

/-! ### Whole-machine properties -/

/-- R60, R82, R259: every access completes, no command hangs and nothing traps: every step of every state gives a next state. -/
def Obligations.StepAlwaysAnswersNext : Prop := ∀ s : State, ∃ t, step s = .next t

/-- R31, R34, R254, R302 and the model's canonical memory (log entry 15): every step keeps the invariant. -/
def Obligations.StepKeepsInvariant : Prop := ∀ s t : State, BlockInv s → step s = .next t → BlockInv t

/-- The invariant holds after reset (R44; log entries 2 and 10 for the model's values). -/
def Obligations.ResetMeetsInvariant : Prop := BlockInv State.reset

/-! ### Host-side conventions (45_host_boundary.md) -/

/-- R236: the hex round trip; the output is lowercase and two characters a byte. -/
def Obligations.HexRoundTrip : Prop :=
  ∀ b : ByteSeq, hexDecode (hexEncode b) = .bytes b ∧ (hexEncode b).length = 2 * b.length ∧
    ∀ c ∈ hexEncode b, ('0' ≤ c ∧ c ≤ '9') ∨ ('a' ≤ c ∧ c ≤ 'f')

/-- R234, R235: malformed hex is rejected, the odd length first, and nothing else is. -/
def Obligations.HexDecodeErrors : Prop :=
  ∀ text : List Char,
    (text.length % 2 = 1 → hexDecode text = .error .oddLength) ∧
    (text.length % 2 = 0 → (∃ c ∈ text, ¬(('0' ≤ c ∧ c ≤ '9') ∨ ('a' ≤ c ∧ c ≤ 'f') ∨ ('A' ≤ c ∧ c ≤ 'F'))) →
      hexDecode text = .error .invalidDigit) ∧
    (text.length % 2 = 0 → (∀ c ∈ text, ('0' ≤ c ∧ c ≤ '9') ∨ ('a' ≤ c ∧ c ≤ 'f') ∨ ('A' ≤ c ∧ c ≤ 'F')) →
      ∃ b, hexDecode text = .bytes b ∧ 2 * b.length = text.length)

/-- R231, R232: a text survives its UTF-8 bytes; bytes that are the UTF-8 of no text get what the host's open parameter says; and
the host's reads of the first `n` bytes of a buffer, made on an idle block, return exactly these bytes, from which it has its text
back. How text is encoded is taken from general knowledge (log entry 16); the event list is the model's (log entry 4). -/
def Obligations.HostReadsTextBack : Prop :=
  (∀ text : List Char, readText (textBytes text) = some text) ∧
    (∀ bytes : ByteSeq, (∀ text, textBytes text ≠ bytes) → readText bytes = Config.utf8DecodeInvalid bytes) ∧
    ∀ (s : State) (w : Window) (n : Nat), s.cfg.wf = true → s.seq = .idle → n ≤ w.cap s.cfg →
      s.events = readWords w (wordsFor n) →
      ∃ replies, Host.Core.run Sys2Proof.core (wordsFor n) s = .next { s with events := [], replies := replies } ∧
        repliedBytes n replies = s.bufBytes w n ∧
        ∀ text, s.bufBytes w n = textBytes text → repliedText n replies = some text
end

