-- ==== Sys2Proof/Laws/Bits.lean ====
section
/-! SUPPORT. The packings of R11 taken apart and put together again. -/

namespace Sys2Proof.Machine

open Sys2Proof

/-- The byte that starts at bit `8k` of a little-endian word is its `k`-th byte (R11, R64). -/
theorem le32_lanes (b0 b1 b2 b3 : Byte) :
    (le32 b0 b1 b2 b3).extractLsb' 0 8 = b0 ∧ (le32 b0 b1 b2 b3).extractLsb' 8 8 = b1 ∧
      (le32 b0 b1 b2 b3).extractLsb' 16 8 = b2 ∧ (le32 b0 b1 b2 b3).extractLsb' 24 8 = b3 := by
  have bit : ∀ n, (le32 b0 b1 b2 b3).getLsbD n =
      if n < 8 then b0.getLsbD n else if n - 8 < 8 then b1.getLsbD (n - 8)
      else if n - 8 - 8 < 8 then b2.getLsbD (n - 8 - 8) else b3.getLsbD (n - 8 - 8 - 8) := by
    intro n
    show BitVec.getLsbD (b3 ++ b2 ++ b1 ++ b0) n = _
    rw [BitVec.getLsbD_append, BitVec.getLsbD_append, BitVec.getLsbD_append]
  refine ⟨?_, ?_, ?_, ?_⟩ <;> ext i hi <;> rw [BitVec.getElem_extractLsb', bit]
  · rw [if_pos (by omega), Nat.zero_add, BitVec.getLsbD_eq_getElem]
  · rw [if_neg (by omega), if_pos (by omega), show 8 + i - 8 = i by omega, BitVec.getLsbD_eq_getElem]
  · rw [if_neg (by omega), if_neg (by omega), if_pos (by omega), show 16 + i - 8 - 8 = i by omega,
      BitVec.getLsbD_eq_getElem]
  · rw [if_neg (by omega), if_neg (by omega), if_neg (by omega), show 24 + i - 8 - 8 - 8 = i by omega,
      BitVec.getLsbD_eq_getElem]

/-- A word is its four bytes, little-endian. -/
theorem le32_of_bytes (v : Word) :
    le32 (v.extractLsb' 0 8) (v.extractLsb' 8 8) (v.extractLsb' 16 8) (v.extractLsb' 24 8) = v := by
  unfold le32
  ext i hi
  simp only [BitVec.getElem_append, BitVec.getElem_extractLsb']
  split_ifs <;> simp <;> (try rw [BitVec.getLsbD_eq_getElem (by omega)]) <;> congr 1 <;> omega

end Sys2Proof.Machine
end

