-- ==== Sys2Proof/Laws/Chain.lean ====
section
/-! SUPPORT. Lengths of the hash core's padding, the keystream and the transform. -/

namespace Sys2Proof.Machine

open Sys2Proof

@[simp] theorem shaK_length : shaK.length = 64 := rfl

@[simp] theorem be32Bytes_length (w : Word) : (be32Bytes w).length = 4 := rfl

@[simp] theorem le32Bytes_length (w : Word) : (le32Bytes w).length = 4 := rfl

@[simp] theorem be64Bytes_length (n : Nat) : (be64Bytes n).length = 8 := rfl

theorem shaPad_length (m : ByteSeq) : (shaPad m).length = m.length + 9 + (55 + 63 * m.length) % 64 := by
  simp only [shaPad, List.length_append, List.length_cons, List.length_replicate, be64Bytes_length]
  omega

@[simp] theorem keystreamFrom_length (iters : Nat) (n : Nat) (blk : Digest) (j : Nat) :
    (keystreamFrom iters n blk j).length = n := by
  induction n generalizing blk j with
  | zero => rfl
  | succ n ih =>
    simp only [keystreamFrom]
    split <;> simp [ih]

@[simp] theorem deriveKeystream_length (iters : Nat) (key : ByteSeq) (n : Nat) :
    (deriveKeystream iters key n).length = n := keystreamFrom_length ..

@[simp] theorem xorBytes_length (a b : ByteSeq) : (xorBytes a b).length = min a.length b.length :=
  List.length_zipWith

@[simp] theorem transform_length (iters : Nat) (key data : ByteSeq) : (transform iters key data).length = data.length := by
  simp [transform]

/-- The block is used up byte by byte; then the next block is the iterated hash of this one (R160). -/
theorem keystreamFrom_within (iters n : Nat) (blk : Digest) (j : Nat) (hj : j < Config.blockBytes) :
    keystreamFrom iters (n + 1) blk j = blk.toList.getD j 0 :: keystreamFrom iters n blk (j + 1) := by
  rw [keystreamFrom, if_neg (Nat.ne_of_lt hj)]

theorem keystreamFrom_next (iters n : Nat) (blk : Digest) :
    keystreamFrom iters n blk Config.blockBytes = keystreamFrom iters n (iteratedHash iters blk.toList) 0 := by
  cases n with
  | zero => rfl
  | succ n => rw [keystreamFrom, if_pos rfl, keystreamFrom, if_neg (by decide)]

/-- Exclusive-or with the same bytes twice changes nothing (R184). -/
theorem xorBytes_cancel (a k : ByteSeq) (h : a.length ≤ k.length) : xorBytes (xorBytes a k) k = a := by
  induction a generalizing k with
  | nil => rfl
  | cons x rest ih =>
    cases k with
    | nil => simp at h
    | cons y k =>
      simp only [xorBytes, List.zipWith_cons_cons, List.cons.injEq]
      refine ⟨by rw [BitVec.xor_assoc, BitVec.xor_self, BitVec.xor_zero], ih k (by simpa using h)⟩

end Sys2Proof.Machine
end

