-- ==== Sys2Proof/Laws/Memory.lean ====
section
/-! SUPPORT. The laws of the memory list: reading after writing and forgetting, and the canonical form kept by each. -/

namespace Sys2Proof.Machine

open Sys2Proof

@[simp] theorem get_nil (a : Nat) : Memory.get [] a = none := rfl

theorem get_cons (c : Host.Cell) (m : Memory) (a : Nat) :
    Memory.get (c :: m) a = if c.1 = a then some c.2 else m.get a := rfl

theorem get_set (m : Memory) (a b : Nat) (v : Byte) :
    (m.set a v).get b = if a = b then some v else m.get b := by
  induction m with
  | nil => simp [Memory.set, Memory.get]
  | cons c rest ih =>
    simp only [Memory.set]
    split
    · rw [get_cons]
    · split
      · rename_i h
        simp only [get_cons, h]
        split <;> rfl
      · rename_i hne
        simp only [get_cons, ih]
        by_cases h : c.1 = b
        · rw [if_pos h, if_pos h, if_neg (fun e => hne (e.trans h.symm))]
        · rw [if_neg h, if_neg h]

@[simp] theorem get_set_same (m : Memory) (a : Nat) (v : Byte) : (m.set a v).get a = some v := by
  rw [get_set, if_pos rfl]

theorem get_set_other (m : Memory) {a b : Nat} (v : Byte) (h : a ≠ b) : (m.set a v).get b = m.get b := by
  rw [get_set, if_neg h]

/-- A byte outside the written run reads as before. -/
theorem get_setBytes_out (bytes : ByteSeq) (m : Memory) (a b : Nat) (h : b < a ∨ a + bytes.length ≤ b) :
    (m.setBytes a bytes).get b = m.get b := by
  induction bytes generalizing m a with
  | nil => rfl
  | cons x rest ih =>
    simp only [List.length_cons] at h
    rw [Memory.setBytes, ih _ _ (by omega), get_set_other]
    omega

/-- A byte of the written run reads as written. -/
theorem get_setBytes_in (bytes : ByteSeq) (m : Memory) (a i : Nat) (h : i < bytes.length) :
    (m.setBytes a bytes).get (a + i) = some (bytes[i]) := by
  induction bytes generalizing m a i with
  | nil => exact absurd h (Nat.not_lt_zero _)
  | cons x rest ih =>
    rw [Memory.setBytes]
    cases i with
    | zero => rw [get_setBytes_out _ _ _ _ (by omega)]; simp
    | succ i =>
      have := ih (m.set a x) (a + 1) i (by simpa using h)
      rw [show a + (i + 1) = a + 1 + i by omega, this]
      rfl

/-- Forgetting makes exactly the addresses of the range unwritten. -/
theorem get_forget (m : Memory) (lo hi b : Nat) :
    (m.forget lo hi).get b = if lo ≤ b ∧ b < hi then none else m.get b := by
  induction m with
  | nil => simp [Memory.forget, Memory.get]
  | cons c rest ih =>
    simp only [Memory.forget] at ih
    simp only [Memory.forget, List.filter_cons, get_cons]
    by_cases hc : c.1 = b
    · subst hc
      by_cases hr : lo ≤ c.1 ∧ c.1 < hi
      · rw [if_neg (by simp; omega), ih, if_pos hr, if_pos hr]
      · rw [if_pos (by simp; omega), get_cons, if_pos rfl, if_neg hr, if_pos rfl]
    · rw [if_neg hc, ← ih]
      split
      · rw [get_cons, if_neg hc]
      · rfl

theorem wf_nil : Memory.wf [] = true := rfl

theorem wf_cons {c : Host.Cell} {m : Memory} :
    Memory.wf (c :: m) = true ↔ (∀ d ∈ m, c.1 < d.1) ∧ m.wf = true := by
  simp [Memory.wf]

/-- Every cell after a write is the written one or was there before. -/
theorem mem_of_mem_set {m : Memory} {a : Nat} {v : Byte} {c : Host.Cell} (h : c ∈ m.set a v) : c = (a, v) ∨ c ∈ m := by
  induction m with
  | nil => simpa [Memory.set] using h
  | cons d rest ih =>
    simp only [Memory.set] at h
    split at h
    · simpa using h
    · split at h
      · rcases List.mem_cons.1 h with h | h
        · exact .inl h
        · exact .inr (List.mem_cons_of_mem _ h)
      · rcases List.mem_cons.1 h with h | h
        · exact .inr (h ▸ List.mem_cons_self)
        · exact (ih h).imp id (List.mem_cons_of_mem _)

theorem wf_set (m : Memory) (a : Nat) (v : Byte) (h : m.wf = true) : (m.set a v).wf = true := by
  induction m with
  | nil => rfl
  | cons c rest ih =>
    obtain ⟨hc, hr⟩ := wf_cons.1 h
    simp only [Memory.set]
    split
    · rename_i hlt
      refine wf_cons.2 ⟨fun d hd => ?_, h⟩
      rcases List.mem_cons.1 hd with rfl | hd
      · exact hlt
      · exact Nat.lt_trans hlt (hc d hd)
    · split
      · rename_i heq
        exact wf_cons.2 ⟨fun d hd => heq ▸ hc d hd, hr⟩
      · refine wf_cons.2 ⟨fun d hd => ?_, ih hr⟩
        rcases mem_of_mem_set hd with rfl | hd
        · show c.1 < a
          omega
        · exact hc d hd

theorem wf_setBytes (bytes : ByteSeq) (m : Memory) (a : Nat) (h : m.wf = true) : (m.setBytes a bytes).wf = true := by
  induction bytes generalizing m a with
  | nil => exact h
  | cons x rest ih => exact ih _ _ (wf_set _ _ _ h)

theorem wf_forget (m : Memory) (lo hi : Nat) (h : m.wf = true) : (m.forget lo hi).wf = true := by
  induction m with
  | nil => rfl
  | cons c rest ih =>
    obtain ⟨hc, hr⟩ := wf_cons.1 h
    simp only [Memory.forget] at ih
    simp only [Memory.forget, List.filter_cons]
    split
    · exact wf_cons.2 ⟨fun d hd => hc d (List.mem_filter.1 hd).1, ih hr⟩
    · exact ih hr

/-- Every cell after writing a run is one of the run's addresses or was there before. -/
theorem mem_of_mem_setBytes {bytes : ByteSeq} {m : Memory} {a : Nat} {c : Host.Cell} (h : c ∈ m.setBytes a bytes) :
    (a ≤ c.1 ∧ c.1 < a + bytes.length) ∨ c ∈ m := by
  induction bytes generalizing m a with
  | nil => exact .inr h
  | cons x rest ih =>
    simp only [List.length_cons]
    rcases ih h with h | h
    · exact .inl (by omega)
    · rcases mem_of_mem_set h with rfl | h
      · exact .inl (by simp)
      · exact .inr h

theorem mem_of_mem_forget {m : Memory} {lo hi : Nat} {c : Host.Cell} (h : c ∈ m.forget lo hi) : c ∈ m :=
  (List.mem_filter.1 h).1

theorem reset_mem_wf : State.reset.mem.wf = true := rfl

/-- In a memory in its canonical form, the cells listed are exactly what reading gives: equal memories are equal data. -/
theorem mem_iff_get {m : Memory} (h : m.wf = true) (a : Nat) (v : Byte) : (a, v) ∈ m ↔ m.get a = some v := by
  induction m with
  | nil => simp
  | cons c rest ih =>
    obtain ⟨hc, hr⟩ := wf_cons.1 h
    rw [get_cons, List.mem_cons, ih hr]
    by_cases he : c.1 = a
    · rw [if_pos he]
      have hn : Memory.get rest a ≠ some v := fun hg => by
        have := hc _ ((ih hr).2 hg)
        simp only at this
        omega
      constructor
      · rintro (rfl | hg)
        · rfl
        · exact absurd hg hn
      · intro hv
        exact .inl (by rw [← he, ← Option.some.inj hv])
    · rw [if_neg he]
      exact or_iff_right fun hv => he (by rw [← hv])

end Sys2Proof.Machine
end

