-- ==== Sys2Proof/Laws/State.lean ====
section
/-! SUPPORT. One lemma per field per update of the state: what each named operation leaves in each field. -/

namespace Sys2Proof.Machine

open Sys2Proof

section refuseAccessFields

variable (s : State) (why : AccCause)

@[simp] theorem refuseAccess_cfg : (refuseAccess why s).cfg = s.cfg := rfl
@[simp] theorem refuseAccess_seq : (refuseAccess why s).seq = s.seq := rfl
@[simp] theorem refuseAccess_curCmd : (refuseAccess why s).curCmd = s.curCmd := rfl
@[simp] theorem refuseAccess_ctrlIE : (refuseAccess why s).ctrlIE = s.ctrlIE := rfl
@[simp] theorem refuseAccess_status : (refuseAccess why s).status = s.status.onRefused := rfl
@[simp] theorem refuseAccess_keyLen : (refuseAccess why s).keyLen = s.keyLen := rfl
@[simp] theorem refuseAccess_ptLen : (refuseAccess why s).ptLen = s.ptLen := rfl
@[simp] theorem refuseAccess_ctLen : (refuseAccess why s).ctLen = s.ctLen := rfl
@[simp] theorem refuseAccess_digest : (refuseAccess why s).digest = s.digest := rfl
@[simp] theorem refuseAccess_mem : (refuseAccess why s).mem = s.mem := rfl
@[simp] theorem refuseAccess_keyDraw : (refuseAccess why s).keyDraw = s.keyDraw := rfl
@[simp] theorem refuseAccess_ptDraw : (refuseAccess why s).ptDraw = s.ptDraw := rfl
@[simp] theorem refuseAccess_ctDraw : (refuseAccess why s).ctDraw = s.ctDraw := rfl
@[simp] theorem refuseAccess_draws : (refuseAccess why s).draws = s.draws := rfl
@[simp] theorem refuseAccess_events : (refuseAccess why s).events = s.events := rfl
@[simp] theorem refuseAccess_replies : (refuseAccess why s).replies = s.replies := rfl

end refuseAccessFields

section replyFields

variable (s : State) (w : Word)

@[simp] theorem reply_cfg : (reply w s).cfg = s.cfg := rfl
@[simp] theorem reply_seq : (reply w s).seq = s.seq := rfl
@[simp] theorem reply_curCmd : (reply w s).curCmd = s.curCmd := rfl
@[simp] theorem reply_ctrlIE : (reply w s).ctrlIE = s.ctrlIE := rfl
@[simp] theorem reply_status : (reply w s).status = s.status := rfl
@[simp] theorem reply_keyLen : (reply w s).keyLen = s.keyLen := rfl
@[simp] theorem reply_ptLen : (reply w s).ptLen = s.ptLen := rfl
@[simp] theorem reply_ctLen : (reply w s).ctLen = s.ctLen := rfl
@[simp] theorem reply_digest : (reply w s).digest = s.digest := rfl
@[simp] theorem reply_mem : (reply w s).mem = s.mem := rfl
@[simp] theorem reply_keyDraw : (reply w s).keyDraw = s.keyDraw := rfl
@[simp] theorem reply_ptDraw : (reply w s).ptDraw = s.ptDraw := rfl
@[simp] theorem reply_ctDraw : (reply w s).ctDraw = s.ctDraw := rfl
@[simp] theorem reply_draws : (reply w s).draws = s.draws := rfl
@[simp] theorem reply_events : (reply w s).events = s.events := rfl
@[simp] theorem reply_replies : (reply w s).replies = w :: s.replies := rfl

end replyFields

section replyDrawnFields

variable (s : State)

@[simp] theorem replyDrawn_cfg : (replyDrawn s).cfg = s.cfg := rfl
@[simp] theorem replyDrawn_seq : (replyDrawn s).seq = s.seq := rfl
@[simp] theorem replyDrawn_curCmd : (replyDrawn s).curCmd = s.curCmd := rfl
@[simp] theorem replyDrawn_ctrlIE : (replyDrawn s).ctrlIE = s.ctrlIE := rfl
@[simp] theorem replyDrawn_status : (replyDrawn s).status = s.status := rfl
@[simp] theorem replyDrawn_keyLen : (replyDrawn s).keyLen = s.keyLen := rfl
@[simp] theorem replyDrawn_ptLen : (replyDrawn s).ptLen = s.ptLen := rfl
@[simp] theorem replyDrawn_ctLen : (replyDrawn s).ctLen = s.ctLen := rfl
@[simp] theorem replyDrawn_digest : (replyDrawn s).digest = s.digest := rfl
@[simp] theorem replyDrawn_mem : (replyDrawn s).mem = s.mem := rfl
@[simp] theorem replyDrawn_keyDraw : (replyDrawn s).keyDraw = s.keyDraw := rfl
@[simp] theorem replyDrawn_ptDraw : (replyDrawn s).ptDraw = s.ptDraw := rfl
@[simp] theorem replyDrawn_ctDraw : (replyDrawn s).ctDraw = s.ctDraw := rfl
@[simp] theorem replyDrawn_draws : (replyDrawn s).draws = s.draws + 1 := rfl
@[simp] theorem replyDrawn_events : (replyDrawn s).events = s.events := rfl
@[simp] theorem replyDrawn_replies : (replyDrawn s).replies = Config.freeWord s.draws :: s.replies := rfl

end replyDrawnFields

section acceptFields

variable (s : State) (w : Word)

@[simp] theorem accept_cfg : (accept w s).cfg = s.cfg := rfl
@[simp] theorem accept_seq : (accept w s).seq = .busy := rfl
@[simp] theorem accept_curCmd : (accept w s).curCmd = w := rfl
@[simp] theorem accept_ctrlIE : (accept w s).ctrlIE = s.ctrlIE := rfl
@[simp] theorem accept_status : (accept w s).status = s.status.onAccept := rfl
@[simp] theorem accept_keyLen : (accept w s).keyLen = s.keyLen := rfl
@[simp] theorem accept_ptLen : (accept w s).ptLen = s.ptLen := rfl
@[simp] theorem accept_ctLen : (accept w s).ctLen = s.ctLen := rfl
@[simp] theorem accept_digest : (accept w s).digest = s.digest := rfl
@[simp] theorem accept_mem : (accept w s).mem = s.mem := rfl
@[simp] theorem accept_keyDraw : (accept w s).keyDraw = s.keyDraw := rfl
@[simp] theorem accept_ptDraw : (accept w s).ptDraw = s.ptDraw := rfl
@[simp] theorem accept_ctDraw : (accept w s).ctDraw = s.ctDraw := rfl
@[simp] theorem accept_draws : (accept w s).draws = s.draws := rfl
@[simp] theorem accept_events : (accept w s).events = s.events := rfl
@[simp] theorem accept_replies : (accept w s).replies = s.replies := rfl

end acceptFields

section completeFields

variable (s : State) (code : ErrCode)

@[simp] theorem complete_cfg : (complete code s).cfg = s.cfg := rfl
@[simp] theorem complete_seq : (complete code s).seq = .idle := rfl
@[simp] theorem complete_curCmd : (complete code s).curCmd = s.curCmd := rfl
@[simp] theorem complete_ctrlIE : (complete code s).ctrlIE = s.ctrlIE := rfl
@[simp] theorem complete_status : (complete code s).status = s.status.onComplete code := rfl
@[simp] theorem complete_keyLen : (complete code s).keyLen = s.keyLen := rfl
@[simp] theorem complete_ptLen : (complete code s).ptLen = s.ptLen := rfl
@[simp] theorem complete_ctLen : (complete code s).ctLen = s.ctLen := rfl
@[simp] theorem complete_digest : (complete code s).digest = s.digest := rfl
@[simp] theorem complete_mem : (complete code s).mem = s.mem := rfl
@[simp] theorem complete_keyDraw : (complete code s).keyDraw = s.keyDraw := rfl
@[simp] theorem complete_ptDraw : (complete code s).ptDraw = s.ptDraw := rfl
@[simp] theorem complete_ctDraw : (complete code s).ctDraw = s.ctDraw := rfl
@[simp] theorem complete_draws : (complete code s).draws = s.draws := rfl
@[simp] theorem complete_events : (complete code s).events = s.events := rfl
@[simp] theorem complete_replies : (complete code s).replies = s.replies := rfl

end completeFields

section storeDigestFields

variable (s : State) (d : Digest)

@[simp] theorem storeDigest_cfg : (storeDigest d s).cfg = s.cfg := rfl
@[simp] theorem storeDigest_seq : (storeDigest d s).seq = s.seq := rfl
@[simp] theorem storeDigest_curCmd : (storeDigest d s).curCmd = s.curCmd := rfl
@[simp] theorem storeDigest_ctrlIE : (storeDigest d s).ctrlIE = s.ctrlIE := rfl
@[simp] theorem storeDigest_status : (storeDigest d s).status = { s.status with digestValid := true } := rfl
@[simp] theorem storeDigest_keyLen : (storeDigest d s).keyLen = s.keyLen := rfl
@[simp] theorem storeDigest_ptLen : (storeDigest d s).ptLen = s.ptLen := rfl
@[simp] theorem storeDigest_ctLen : (storeDigest d s).ctLen = s.ctLen := rfl
@[simp] theorem storeDigest_digest : (storeDigest d s).digest = d := rfl
@[simp] theorem storeDigest_mem : (storeDigest d s).mem = s.mem := rfl
@[simp] theorem storeDigest_keyDraw : (storeDigest d s).keyDraw = s.keyDraw := rfl
@[simp] theorem storeDigest_ptDraw : (storeDigest d s).ptDraw = s.ptDraw := rfl
@[simp] theorem storeDigest_ctDraw : (storeDigest d s).ctDraw = s.ctDraw := rfl
@[simp] theorem storeDigest_draws : (storeDigest d s).draws = s.draws := rfl
@[simp] theorem storeDigest_events : (storeDigest d s).events = s.events := rfl
@[simp] theorem storeDigest_replies : (storeDigest d s).replies = s.replies := rfl

end storeDigestFields

section writeBufFields

variable (s : State) (w : Window) (i : Nat) (bytes : ByteSeq)

@[simp] theorem writeBuf_cfg : (writeBuf w i bytes s).cfg = s.cfg := rfl
@[simp] theorem writeBuf_seq : (writeBuf w i bytes s).seq = s.seq := rfl
@[simp] theorem writeBuf_curCmd : (writeBuf w i bytes s).curCmd = s.curCmd := rfl
@[simp] theorem writeBuf_ctrlIE : (writeBuf w i bytes s).ctrlIE = s.ctrlIE := rfl
@[simp] theorem writeBuf_status : (writeBuf w i bytes s).status = s.status := rfl
@[simp] theorem writeBuf_keyLen : (writeBuf w i bytes s).keyLen = s.keyLen := rfl
@[simp] theorem writeBuf_ptLen : (writeBuf w i bytes s).ptLen = s.ptLen := rfl
@[simp] theorem writeBuf_ctLen : (writeBuf w i bytes s).ctLen = s.ctLen := rfl
@[simp] theorem writeBuf_digest : (writeBuf w i bytes s).digest = s.digest := rfl
@[simp] theorem writeBuf_mem : (writeBuf w i bytes s).mem = s.mem.setBytes (w.base + i) bytes := rfl
@[simp] theorem writeBuf_keyDraw : (writeBuf w i bytes s).keyDraw = s.keyDraw := rfl
@[simp] theorem writeBuf_ptDraw : (writeBuf w i bytes s).ptDraw = s.ptDraw := rfl
@[simp] theorem writeBuf_ctDraw : (writeBuf w i bytes s).ctDraw = s.ctDraw := rfl
@[simp] theorem writeBuf_draws : (writeBuf w i bytes s).draws = s.draws := rfl
@[simp] theorem writeBuf_events : (writeBuf w i bytes s).events = s.events := rfl
@[simp] theorem writeBuf_replies : (writeBuf w i bytes s).replies = s.replies := rfl

end writeBufFields

section setLenFields

variable (s : State) (w : Window) (n : Len)

@[simp] theorem setLen_cfg : (setLen w n s).cfg = s.cfg := by cases w <;> rfl
@[simp] theorem setLen_seq : (setLen w n s).seq = s.seq := by cases w <;> rfl
@[simp] theorem setLen_curCmd : (setLen w n s).curCmd = s.curCmd := by cases w <;> rfl
@[simp] theorem setLen_ctrlIE : (setLen w n s).ctrlIE = s.ctrlIE := by cases w <;> rfl
@[simp] theorem setLen_digest : (setLen w n s).digest = s.digest := by cases w <;> rfl
@[simp] theorem setLen_mem : (setLen w n s).mem = s.mem := by cases w <;> rfl
@[simp] theorem setLen_keyDraw : (setLen w n s).keyDraw = s.keyDraw := by cases w <;> rfl
@[simp] theorem setLen_ptDraw : (setLen w n s).ptDraw = s.ptDraw := by cases w <;> rfl
@[simp] theorem setLen_ctDraw : (setLen w n s).ctDraw = s.ctDraw := by cases w <;> rfl
@[simp] theorem setLen_draws : (setLen w n s).draws = s.draws := by cases w <;> rfl
@[simp] theorem setLen_events : (setLen w n s).events = s.events := by cases w <;> rfl
@[simp] theorem setLen_replies : (setLen w n s).replies = s.replies := by cases w <;> rfl

end setLenFields

section redrawFields

variable (s : State) (w : Window)

@[simp] theorem redraw_cfg : (redraw w s).cfg = s.cfg := by cases w <;> rfl
@[simp] theorem redraw_seq : (redraw w s).seq = s.seq := by cases w <;> rfl
@[simp] theorem redraw_curCmd : (redraw w s).curCmd = s.curCmd := by cases w <;> rfl
@[simp] theorem redraw_ctrlIE : (redraw w s).ctrlIE = s.ctrlIE := by cases w <;> rfl
@[simp] theorem redraw_status : (redraw w s).status = s.status := by cases w <;> rfl
@[simp] theorem redraw_keyLen : (redraw w s).keyLen = s.keyLen := by cases w <;> rfl
@[simp] theorem redraw_ptLen : (redraw w s).ptLen = s.ptLen := by cases w <;> rfl
@[simp] theorem redraw_ctLen : (redraw w s).ctLen = s.ctLen := by cases w <;> rfl
@[simp] theorem redraw_digest : (redraw w s).digest = s.digest := by cases w <;> rfl
@[simp] theorem redraw_mem : (redraw w s).mem = s.mem.forget w.base (w.base + Window.size) := by cases w <;> rfl
@[simp] theorem redraw_draws : (redraw w s).draws = s.draws + 1 := by cases w <;> rfl
@[simp] theorem redraw_events : (redraw w s).events = s.events := by cases w <;> rfl
@[simp] theorem redraw_replies : (redraw w s).replies = s.replies := by cases w <;> rfl

end redrawFields

section storeSessionFields

variable (s : State) (w : Window) (n : Len) (bytes : ByteSeq)

@[simp] theorem storeSession_cfg : (storeSession w n bytes s).cfg = s.cfg := by cases w <;> rfl
@[simp] theorem storeSession_seq : (storeSession w n bytes s).seq = s.seq := by cases w <;> rfl
@[simp] theorem storeSession_curCmd : (storeSession w n bytes s).curCmd = s.curCmd := by cases w <;> rfl
@[simp] theorem storeSession_ctrlIE : (storeSession w n bytes s).ctrlIE = s.ctrlIE := by cases w <;> rfl
@[simp] theorem storeSession_digest : (storeSession w n bytes s).digest = s.digest := by cases w <;> rfl
@[simp] theorem storeSession_mem : (storeSession w n bytes s).mem = (s.mem.forget w.base (w.base + Window.size)).setBytes w.base bytes := by cases w <;> rfl
@[simp] theorem storeSession_draws : (storeSession w n bytes s).draws = s.draws + 1 := by cases w <;> rfl
@[simp] theorem storeSession_events : (storeSession w n bytes s).events = s.events := by cases w <;> rfl
@[simp] theorem storeSession_replies : (storeSession w n bytes s).replies = s.replies := by cases w <;> rfl

end storeSessionFields

section applyResetFields

variable (s : State)

@[simp] theorem applyReset_cfg : (applyReset s).cfg = s.cfg := rfl
@[simp] theorem applyReset_seq : (applyReset s).seq = .idle := rfl
@[simp] theorem applyReset_curCmd : (applyReset s).curCmd = 0 := rfl
@[simp] theorem applyReset_ctrlIE : (applyReset s).ctrlIE = false := rfl
@[simp] theorem applyReset_status : (applyReset s).status = Status.cleared := rfl
@[simp] theorem applyReset_keyLen : (applyReset s).keyLen = 0 := rfl
@[simp] theorem applyReset_ptLen : (applyReset s).ptLen = 0 := rfl
@[simp] theorem applyReset_ctLen : (applyReset s).ctLen = 0 := rfl
@[simp] theorem applyReset_digest : (applyReset s).digest = drawnDigest s.draws := rfl
@[simp] theorem applyReset_mem : (applyReset s).mem = [] := rfl
@[simp] theorem applyReset_keyDraw : (applyReset s).keyDraw = s.draws := rfl
@[simp] theorem applyReset_ptDraw : (applyReset s).ptDraw = s.draws := rfl
@[simp] theorem applyReset_ctDraw : (applyReset s).ctDraw = s.draws := rfl
@[simp] theorem applyReset_draws : (applyReset s).draws = s.draws + 1 := rfl
@[simp] theorem applyReset_events : (applyReset s).events = s.events := rfl
@[simp] theorem applyReset_replies : (applyReset s).replies = s.replies := rfl

end applyResetFields

section onAcceptFields

variable (s : Status)

@[simp] theorem onAccept_done : (s.onAccept).done = false := rfl
@[simp] theorem onAccept_accErr : (s.onAccept).accErr = s.accErr := rfl
@[simp] theorem onAccept_errCode : (s.onAccept).errCode = .ok := rfl
@[simp] theorem onAccept_keyValid : (s.onAccept).keyValid = s.keyValid := rfl
@[simp] theorem onAccept_ptValid : (s.onAccept).ptValid = s.ptValid := rfl
@[simp] theorem onAccept_ctValid : (s.onAccept).ctValid = s.ctValid := rfl
@[simp] theorem onAccept_digestValid : (s.onAccept).digestValid = s.digestValid := rfl

end onAcceptFields

section onCompleteFields

variable (s : Status) (code : ErrCode)

@[simp] theorem onComplete_done : (s.onComplete code).done = true := rfl
@[simp] theorem onComplete_accErr : (s.onComplete code).accErr = s.accErr := rfl
@[simp] theorem onComplete_errCode : (s.onComplete code).errCode = code := rfl
@[simp] theorem onComplete_keyValid : (s.onComplete code).keyValid = s.keyValid := rfl
@[simp] theorem onComplete_ptValid : (s.onComplete code).ptValid = s.ptValid := rfl
@[simp] theorem onComplete_ctValid : (s.onComplete code).ctValid = s.ctValid := rfl
@[simp] theorem onComplete_digestValid : (s.onComplete code).digestValid = s.digestValid := rfl

end onCompleteFields

section onRefusedFields

variable (s : Status)

@[simp] theorem onRefused_done : (s.onRefused).done = s.done := rfl
@[simp] theorem onRefused_accErr : (s.onRefused).accErr = true := rfl
@[simp] theorem onRefused_errCode : (s.onRefused).errCode = s.errCode := rfl
@[simp] theorem onRefused_keyValid : (s.onRefused).keyValid = s.keyValid := rfl
@[simp] theorem onRefused_ptValid : (s.onRefused).ptValid = s.ptValid := rfl
@[simp] theorem onRefused_ctValid : (s.onRefused).ctValid = s.ctValid := rfl
@[simp] theorem onRefused_digestValid : (s.onRefused).digestValid = s.digestValid := rfl

end onRefusedFields

section onStatusWriteFields

variable (s : Status) (v : Word)

@[simp] theorem onStatusWrite_done : (s.onStatusWrite v).done = (s.done && !v.getLsbD 1) := rfl
@[simp] theorem onStatusWrite_accErr : (s.onStatusWrite v).accErr = (s.accErr && !v.getLsbD 2) := rfl
@[simp] theorem onStatusWrite_errCode : (s.onStatusWrite v).errCode = s.errCode := rfl
@[simp] theorem onStatusWrite_keyValid : (s.onStatusWrite v).keyValid = s.keyValid := rfl
@[simp] theorem onStatusWrite_ptValid : (s.onStatusWrite v).ptValid = s.ptValid := rfl
@[simp] theorem onStatusWrite_ctValid : (s.onStatusWrite v).ctValid = s.ctValid := rfl
@[simp] theorem onStatusWrite_digestValid : (s.onStatusWrite v).digestValid = s.digestValid := rfl

end onStatusWriteFields

section setLenStatus

variable (s : State) (w : Window) (n : Len)

@[simp] theorem setLen_status_done : (setLen w n s).status.done = s.status.done := by cases w <;> rfl
@[simp] theorem setLen_status_accErr : (setLen w n s).status.accErr = s.status.accErr := by cases w <;> rfl
@[simp] theorem setLen_status_errCode : (setLen w n s).status.errCode = s.status.errCode := by cases w <;> rfl
@[simp] theorem setLen_status_digestValid : (setLen w n s).status.digestValid = s.status.digestValid := by cases w <;> rfl
@[simp] theorem storeSession_status_done (bytes : ByteSeq) :
    (storeSession w n bytes s).status.done = s.status.done := by cases w <;> rfl
@[simp] theorem storeSession_status_accErr (bytes : ByteSeq) :
    (storeSession w n bytes s).status.accErr = s.status.accErr := by cases w <;> rfl
@[simp] theorem storeSession_status_errCode (bytes : ByteSeq) :
    (storeSession w n bytes s).status.errCode = s.status.errCode := by cases w <;> rfl
@[simp] theorem storeSession_status_digestValid (bytes : ByteSeq) :
    (storeSession w n bytes s).status.digestValid = s.status.digestValid := by cases w <;> rfl

end setLenStatus

end Sys2Proof.Machine
end

