-- ==== Sys2Proof/Laws/Operands.lean ====
section
/-! SUPPORT. What the shared operations do to the buffers, the session views and the operands. -/

namespace Sys2Proof.Machine

open Sys2Proof

/-- Two windows' regions do not meet (R63). -/
theorem window_disjoint {w v : Window} (h : w ≠ v) : w.base + Window.size ≤ v.base ∨ v.base + Window.size ≤ w.base := by
  cases w <;> cases v <;> simp_all [Window.base, Window.size]

/-- A buffer byte depends on the memory and on the buffer's draw alone. -/
theorem bufByte_congr {s t : State} (w : Window) (hm : t.mem = s.mem) (hd : t.drawOf w = s.drawOf w) (i : Nat) :
    t.bufByte w i = s.bufByte w i := by
  simp only [State.bufByte, hm, hd]

theorem bufBytes_congr {s t : State} (w : Window) (hm : t.mem = s.mem) (hd : t.drawOf w = s.drawOf w) (n : Nat) :
    t.bufBytes w n = s.bufBytes w n := by
  simp only [State.bufBytes, bufByte_congr w hm hd]

theorem session_congr {s t : State} (w : Window) (hm : t.mem = s.mem) (hd : t.drawOf w = s.drawOf w)
    (hl : t.lenOf w = s.lenOf w) : t.session w = s.session w := by
  simp only [State.session, bufBytes_congr w hm hd, hl]

@[simp] theorem bufBytes_length (s : State) (w : Window) (n : Nat) : (s.bufBytes w n).length = n := by
  simp [State.bufBytes]

@[simp] theorem session_length (s : State) (w : Window) : (s.session w).length = (s.lenOf w).toNat := by
  simp [State.session]

theorem bufBytes_getElem (s : State) (w : Window) (n i : Nat) (h : i < (s.bufBytes w n).length) :
    (s.bufBytes w n)[i] = s.bufByte w i := by
  simp [State.bufBytes]

/-- Two views are equal when their bytes are. -/
theorem bufBytes_eq_iff {s t : State} {w v : Window} {n : Nat} :
    t.bufBytes w n = s.bufBytes v n ↔ ∀ i < n, t.bufByte w i = s.bufByte v i := by
  simp [State.bufBytes]

section updates

variable (s : State) (w v : Window) (i : Nat) (n : Len) (bytes : ByteSeq)

@[simp] theorem setLen_lenOf : (setLen w n s).lenOf v = if v = w then n else s.lenOf v := by
  cases w <;> cases v <;> rfl

@[simp] theorem setLen_validOf : (setLen w n s).validOf v = (decide (v = w) || s.validOf v) := by
  cases w <;> cases v <;> simp [setLen, State.validOf]

@[simp] theorem setLen_drawOf : (setLen w n s).drawOf v = s.drawOf v := by cases w <;> rfl

@[simp] theorem setLen_bufByte : (setLen w n s).bufByte v i = s.bufByte v i :=
  bufByte_congr v (setLen_mem ..) (setLen_drawOf ..) i

@[simp] theorem redraw_lenOf : (redraw w s).lenOf v = s.lenOf v := by cases w <;> rfl

@[simp] theorem redraw_validOf : (redraw w s).validOf v = s.validOf v := by cases w <;> rfl

@[simp] theorem redraw_drawOf : (redraw w s).drawOf v = if v = w then s.draws else s.drawOf v := by
  cases w <;> cases v <;> rfl

@[simp] theorem writeBuf_lenOf : (writeBuf w i bytes s).lenOf v = s.lenOf v := by cases v <;> rfl

@[simp] theorem writeBuf_validOf : (writeBuf w i bytes s).validOf v = s.validOf v := by cases v <;> rfl

@[simp] theorem writeBuf_drawOf : (writeBuf w i bytes s).drawOf v = s.drawOf v := by cases v <;> rfl

@[simp] theorem storeSession_lenOf : (storeSession w n bytes s).lenOf v = if v = w then n else s.lenOf v := by
  simp [storeSession]

@[simp] theorem storeSession_validOf : (storeSession w n bytes s).validOf v = (decide (v = w) || s.validOf v) := by
  simp [storeSession]

@[simp] theorem storeSession_drawOf :
    (storeSession w n bytes s).drawOf v = if v = w then s.draws else s.drawOf v := by
  simp [storeSession]

@[simp] theorem complete_lenOf (c : ErrCode) : (complete c s).lenOf v = s.lenOf v := by cases v <;> rfl

@[simp] theorem complete_validOf (c : ErrCode) : (complete c s).validOf v = s.validOf v := by cases v <;> rfl

@[simp] theorem complete_drawOf (c : ErrCode) : (complete c s).drawOf v = s.drawOf v := by cases v <;> rfl

@[simp] theorem complete_bufByte (c : ErrCode) : (complete c s).bufByte v i = s.bufByte v i :=
  bufByte_congr v rfl (complete_drawOf ..) i

@[simp] theorem complete_session (c : ErrCode) : (complete c s).session v = s.session v :=
  session_congr v rfl (complete_drawOf ..) (complete_lenOf ..)

@[simp] theorem storeDigest_lenOf (d : Digest) : (storeDigest d s).lenOf v = s.lenOf v := by cases v <;> rfl

@[simp] theorem storeDigest_validOf (d : Digest) : (storeDigest d s).validOf v = s.validOf v := by cases v <;> rfl

@[simp] theorem storeDigest_drawOf (d : Digest) : (storeDigest d s).drawOf v = s.drawOf v := by cases v <;> rfl

@[simp] theorem storeDigest_bufByte (d : Digest) : (storeDigest d s).bufByte v i = s.bufByte v i :=
  bufByte_congr v rfl (storeDigest_drawOf ..) i

@[simp] theorem storeDigest_session (d : Digest) : (storeDigest d s).session v = s.session v :=
  session_congr v rfl (storeDigest_drawOf ..) (storeDigest_lenOf ..)

@[simp] theorem accept_lenOf (c : Word) : (accept c s).lenOf v = s.lenOf v := by cases v <;> rfl

@[simp] theorem accept_validOf (c : Word) : (accept c s).validOf v = s.validOf v := by cases v <;> rfl

@[simp] theorem accept_drawOf (c : Word) : (accept c s).drawOf v = s.drawOf v := by cases v <;> rfl

@[simp] theorem refuseAccess_lenOf (c : AccCause) : (refuseAccess c s).lenOf v = s.lenOf v := by cases v <;> rfl

@[simp] theorem refuseAccess_validOf (c : AccCause) : (refuseAccess c s).validOf v = s.validOf v := by cases v <;> rfl

@[simp] theorem refuseAccess_drawOf (c : AccCause) : (refuseAccess c s).drawOf v = s.drawOf v := by cases v <;> rfl

@[simp] theorem applyReset_lenOf : (applyReset s).lenOf v = 0 := by cases v <;> rfl

@[simp] theorem applyReset_validOf : (applyReset s).validOf v = false := by cases v <;> rfl

@[simp] theorem applyReset_drawOf : (applyReset s).drawOf v = s.draws := by cases v <;> rfl

end updates

/-- A byte of a written run reads as written (R62, R64). -/
theorem writeBuf_bufByte_in (s : State) (w : Window) (i k : Nat) (bytes : ByteSeq) (h : k < bytes.length) :
    (writeBuf w i bytes s).bufByte w (i + k) = bytes[k] := by
  simp only [State.bufByte, writeBuf_mem]
  rw [← Nat.add_assoc, get_setBytes_in _ _ _ _ h, Option.getD_some]

/-- A byte outside the written run reads as before. -/
theorem writeBuf_bufByte_out (s : State) (w v : Window) (i k : Nat) (bytes : ByteSeq)
    (h : v.base + k < w.base + i ∨ w.base + i + bytes.length ≤ v.base + k) :
    (writeBuf w i bytes s).bufByte v k = s.bufByte v k := by
  simp only [State.bufByte, writeBuf_mem, writeBuf_drawOf]
  rw [get_setBytes_out _ _ _ _ h]

/-- The output bytes of a transform (R180, R181). -/
theorem storeSession_bufByte_in (s : State) (w : Window) (n : Len) (bytes : ByteSeq) (i : Nat) (h : i < bytes.length) :
    (storeSession w n bytes s).bufByte w i = bytes[i] := by
  rw [storeSession, setLen_bufByte]
  simpa using writeBuf_bufByte_in (redraw w s) w 0 i bytes h

/-- The unspecified bytes beyond the output (R182). -/
theorem storeSession_bufByte_beyond (s : State) (w : Window) (n : Len) (bytes : ByteSeq) (i : Nat)
    (h : bytes.length ≤ i) (hs : i < Window.size) :
    (storeSession w n bytes s).bufByte w i = Config.freeByte s.draws (w.base + i) := by
  rw [storeSession, setLen_bufByte, writeBuf_bufByte_out _ _ _ _ _ _ (by omega)]
  simp only [State.bufByte, redraw_mem, redraw_drawOf]
  rw [get_forget, if_pos (by omega)]
  rfl

/-- A transform leaves every byte of the other buffers (R183). -/
theorem storeSession_bufByte_other (s : State) (w v : Window) (n : Len) (bytes : ByteSeq) (i : Nat) (hv : v ≠ w)
    (hb : bytes.length ≤ Window.size) (hs : i < Window.size) :
    (storeSession w n bytes s).bufByte v i = s.bufByte v i := by
  have hd := window_disjoint hv
  rw [storeSession, setLen_bufByte, writeBuf_bufByte_out _ _ _ _ _ _ (by omega)]
  simp only [State.bufByte, redraw_mem, redraw_drawOf]
  rw [get_forget, if_neg (by omega), if_neg hv]

/-- After a transform the session value of its output buffer is the transform's output. -/
theorem storeSession_session (s : State) (w : Window) (n : Len) (bytes : ByteSeq) (h : bytes.length = n.toNat) :
    (storeSession w n bytes s).session w = bytes := by
  refine List.ext_getElem (by simp [h]) fun i h1 h2 => ?_
  simp only [State.session]
  rw [bufBytes_getElem, storeSession_bufByte_in _ _ _ _ _ h2]

/-- A transform leaves the other session values (R39, R183). -/
theorem storeSession_session_other (s : State) (w v : Window) (n : Len) (bytes : ByteSeq) (hv : v ≠ w)
    (hb : bytes.length ≤ Window.size) (hl : (s.lenOf v).toNat ≤ Window.size) :
    (storeSession w n bytes s).session v = s.session v := by
  simp only [State.session, storeSession_lenOf, if_neg hv]
  exact bufBytes_eq_iff.2 fun i hi => storeSession_bufByte_other s w v n bytes i hv hb (by omega)

end Sys2Proof.Machine
end

