-- ==== Sys2Proof/Laws/Exec.lean ====
section
/-! SUPPORT. What each command, the engine, a bus access and a step can do, each said once. -/

namespace Sys2Proof.Machine

open Sys2Proof

/-- The writes of a command that ends without error, before its completion (the effects of R202). -/
def commandEffect (i : Instr) (s : State) : State :=
  match i with
  | .hash src => storeDigest (sha256 (s.srcBytes src)) s
  | .iterhash src => storeDigest (iteratedHash s.cfg.iterCount (s.srcBytes src)) s
  | .encrypt => storeSession .ct s.ptLen (transform s.cfg.iterCount (s.session .key) (s.session .pt)) s
  | .decrypt => storeSession .pt s.ctLen (transform s.cfg.iterCount (s.session .key) (s.session .ct)) s

/-- A command whose sources are set has its effect and completes. -/
theorem exec_ok {i : Instr} {s : State} (h : resultCode s i = .ok) :
    exec i s = .next (complete .ok (commandEffect i s)) := by
  cases i with
  | hash src =>
    cases src <;>
      simp_all [resultCode, usesKey, dataSet, exec, execHash, commandEffect, State.srcValid, State.validOf]
  | iterhash src =>
    cases src <;>
      simp_all [resultCode, usesKey, dataSet, exec, execIterhash, commandEffect, State.srcValid, State.validOf]
  | encrypt =>
    cases hk : s.status.keyValid <;> cases hp : s.status.ptValid <;>
      simp_all [resultCode, usesKey, dataSet, exec, execEncrypt, commandEffect]
  | decrypt =>
    cases hk : s.status.keyValid <;> cases hp : s.status.ctValid <;>
      simp_all [resultCode, usesKey, dataSet, exec, execDecrypt, commandEffect]

/-- A command with a source that is not set only reports it (R206). -/
theorem exec_error {i : Instr} {s : State} (h : resultCode s i ≠ .ok) :
    exec i s = .next (complete (resultCode s i) s) := by
  cases i with
  | hash src =>
    cases src <;>
      simp_all [resultCode, usesKey, dataSet, exec, execHash, notSetError, State.srcValid, State.validOf]
  | iterhash src =>
    cases src <;>
      simp_all [resultCode, usesKey, dataSet, exec, execIterhash, notSetError, State.srcValid, State.validOf]
  | encrypt =>
    cases hk : s.status.keyValid <;> cases hp : s.status.ptValid <;>
      simp_all [resultCode, usesKey, dataSet, exec, execEncrypt]
  | decrypt =>
    cases hk : s.status.keyValid <;> cases hp : s.status.ctValid <;>
      simp_all [resultCode, usesKey, dataSet, exec, execDecrypt]

/-- What a command can do: its effect and OK, or an error code and nothing else. -/
theorem exec_cases (i : Instr) (s : State) :
    (resultCode s i = .ok ∧ exec i s = .next (complete .ok (commandEffect i s))) ∨
      (resultCode s i ≠ .ok ∧ exec i s = .next (complete (resultCode s i) s)) := by
  by_cases h : resultCode s i = .ok
  · exact .inl ⟨h, exec_ok h⟩
  · exact .inr ⟨h, exec_error h⟩

/-- The codes a command can end with (R250, R254). -/
theorem resultCode_cases (s : State) (i : Instr) :
    resultCode s i = .ok ∨ resultCode s i = .keyNotSet ∨ resultCode s i = .srcNotSet := by
  unfold resultCode
  split
  · exact .inr (.inl rfl)
  · split
    · exact .inr (.inr rfl)
    · exact .inl rfl

/-- What the engine's turn can do. -/
theorem engineTurn_cases (s : State) :
    (s.seq = .idle ∧ engineTurn s = .next s) ∨
      (s.seq = .busy ∧ ∃ i, decode s.curCmd = .command i ∧ engineTurn s = exec i s) ∨
        (s.seq = .busy ∧ ∃ why, decode s.curCmd = .illegal why ∧ engineTurn s = .next (complete .illegalCmd s)) := by
  cases hs : s.seq with
  | idle => exact .inl ⟨rfl, by rw [engineTurn, hs]⟩
  | busy =>
    cases hd : decode s.curCmd with
    | command i => exact .inr (.inl ⟨rfl, i, rfl, by rw [engineTurn, hs]; simp only [hd]⟩)
    | illegal why => exact .inr (.inr ⟨rfl, why, rfl, by rw [engineTurn, hs]; simp only [hd]; rfl⟩)

theorem busy_iff (s : State) : s.busy = true ↔ s.seq = .busy := by simp [State.busy]

/-- What `MemRead` can do: refuse, answer with an unspecified word while BUSY, or answer with a word. -/
theorem memRead_cases (addr : Addr) (s : State) :
    (∃ why, target s.cfg addr = .refused why ∧ memRead addr s = reply 0 (refuseAccess why s)) ∨
      (s.seq = .busy ∧ memRead addr s = replyDrawn s) ∨ ∃ w, memRead addr s = reply w s := by
  unfold memRead
  split
  · rename_i why h
    exact .inl ⟨why, h, rfl⟩
  · split
    · rename_i hb
      exact .inr (.inl ⟨(busy_iff s).1 hb, rfl⟩)
    · exact .inr (.inr ⟨_, rfl⟩)
  · exact .inr (.inr ⟨_, rfl⟩)
  · split
    · rename_i hb
      exact .inr (.inl ⟨(busy_iff s).1 hb, rfl⟩)
    · exact .inr (.inr ⟨_, rfl⟩)

/-- What a register write can do. -/
theorem regWrite_cases (r : Reg) (v : Word) (s : State) :
    (∃ why, regWrite r v s = refuseAccess why s) ∨
      (r = .ctrl ∧ regWrite r v s = { s with ctrlIE := v.getLsbD 0 }) ∨
        (r = .status ∧ regWrite r v s = { s with status := s.status.onStatusWrite v }) ∨
          (r = .cmd ∧ s.seq = .idle ∧ regWrite r v s = accept v s) ∨
            ∃ w, r = .len w ∧ s.seq = .idle ∧ v.toNat ≤ w.cap s.cfg ∧ regWrite r v s = setLen w (v.setWidth 17) s := by
  have idle_of : ¬s.busy = true → s.seq = .idle := fun h => by
    cases hs : s.seq with
    | idle => rfl
    | busy => exact absurd ((busy_iff s).2 hs) h
  cases r with
  | ctrl => exact .inr (.inl ⟨rfl, rfl⟩)
  | status => exact .inr (.inr (.inl ⟨rfl, rfl⟩))
  | cmd =>
    by_cases hb : s.busy = true
    · exact .inl ⟨.busyWrite, by rw [regWrite, writeCmd, if_pos hb]⟩
    · exact .inr (.inr (.inr (.inl ⟨rfl, idle_of hb, by rw [regWrite, writeCmd, if_neg hb]⟩)))
  | len w =>
    by_cases hb : s.busy = true
    · exact .inl ⟨.busyWrite, by rw [regWrite, writeLen, if_pos hb]⟩
    · by_cases hv : w.cap s.cfg < v.toNat
      · exact .inl ⟨.lenRange, by rw [regWrite, writeLen, if_neg hb, if_pos hv]⟩
      · exact .inr (.inr (.inr (.inr
          ⟨w, rfl, idle_of hb, Nat.le_of_not_lt hv, by rw [regWrite, writeLen, if_neg hb, if_neg hv]⟩)))
  | id => exact .inl ⟨.roWrite, rfl⟩
  | cfg => exact .inl ⟨.roWrite, rfl⟩
  | keyCap => exact .inl ⟨.roWrite, rfl⟩
  | dataCap => exact .inl ⟨.roWrite, rfl⟩
  | digest k => exact .inl ⟨.roWrite, rfl⟩

/-- What `MemWrite` can do: refuse, a register's write rule, or a buffer word while IDLE. -/
theorem memWrite_cases (addr : Addr) (v : Word) (s : State) :
    (∃ why, memWrite addr v s = refuseAccess why s) ∨
      (∃ r, target s.cfg addr = .reg r ∧ memWrite addr v s = regWrite r v s) ∨
        ∃ w i, target s.cfg addr = .buf w i ∧ s.seq = .idle ∧ memWrite addr v s = writeBuf w i (le32Bytes v) s := by
  unfold memWrite
  split
  · exact .inl ⟨_, rfl⟩
  · rename_i r h
    exact .inr (.inl ⟨r, h, rfl⟩)
  · rename_i w i h
    split
    · exact .inl ⟨_, rfl⟩
    · rename_i hb
      refine .inr (.inr ⟨w, i, h, ?_, rfl⟩)
      cases hs : s.seq with
      | idle => rfl
      | busy => exact absurd ((busy_iff s).2 hs) hb

/-- A buffer target is a word inside the buffer's capacity (R61, R63). -/
theorem target_buf {c : Config} {addr : Addr} {w : Window} {i : Nat} (h : target c addr = .buf w i) :
    addr.toNat = w.base + i ∧ i + 3 < w.cap c ∧ addr.toNat % 4 = 0 := by
  have hlt := addr.isLt
  unfold target at h
  simp only at h
  split at h
  · cases h
  split at h
  · split at h <;> cases h
  have window : ∀ {v : Window} {n : Nat}, windowTarget c v n = .buf w i → v.base ≤ n → n = w.base + i ∧ i + 3 < w.cap c := by
    intro v n hv hn
    unfold windowTarget at hv
    split at hv
    · cases hv
    · cases hv
      exact ⟨by omega, by omega⟩
  split at h
  · have := window h (by simp only [Window.base]; omega)
    omega
  split at h
  · have := window h (by simp only [Window.base]; omega)
    omega
  · have := window h (by simp only [Window.base]; omega)
    omega

/-- What a step can do: the engine's turn, a bus access, or a reset, on the state whose event it is. -/
theorem step_cases (s : State) :
    (s.events = [] ∧ step s = engineTurn s) ∨
      ∃ e rest, s.events = e :: rest ∧ step s = perform e { s with events := rest } := by
  unfold step turn
  cases h : s.events with
  | nil => exact .inl ⟨rfl, rfl⟩
  | cons e rest => exact .inr ⟨e, rest, rfl, rfl⟩

end Sys2Proof.Machine
end

