-- ==== Sys2Proof/Laws/Bus.lean ====
section
/-! SUPPORT. What each address selects, and what an access to it does. -/

namespace Sys2Proof.Machine

open Sys2Proof

/-- R7: no capacity exceeds a window's region. -/
theorem cap_le {c : Config} (h : c.wf = true) (w : Window) : w.cap c ≤ Window.size := by
  simp only [Config.wf, Config.capacityOk, Bool.and_eq_true, decide_eq_true_eq] at h
  cases w <;> simp only [Window.cap, Window.size] <;> omega

theorem cap_aligned {c : Config} (h : c.wf = true) (w : Window) : w.cap c % 4 = 0 := by
  simp only [Config.wf, Config.capacityOk, Bool.and_eq_true, beq_iff_eq] at h
  cases w <;> simp only [Window.cap] <;> omega

theorem target_id (c : Config) : target c 0x00000 = .reg .id := rfl
theorem target_cfg (c : Config) : target c 0x00004 = .reg .cfg := rfl
theorem target_keyCap (c : Config) : target c 0x00008 = .reg .keyCap := rfl
theorem target_dataCap (c : Config) : target c 0x0000C = .reg .dataCap := rfl
theorem target_ctrl (c : Config) : target c 0x00010 = .reg .ctrl := rfl
theorem target_status (c : Config) : target c 0x00014 = .reg .status := rfl
theorem target_cmd (c : Config) : target c 0x00018 = .reg .cmd := rfl

theorem target_lenAddr (c : Config) (w : Window) : target c (lenAddr w) = .reg (.len w) := by cases w <;> rfl

/-- The word at index `4k` of a buffer stands at `window_base + 4k` (R63, R64). -/
theorem target_window {c : Config} (hc : c.wf = true) {a : Addr} {w : Window} {k : Nat} (ha : a.toNat = w.base + 4 * k)
    (hk : 4 * k + 3 < w.cap c) : target c a = .buf w (4 * k) := by
  have hcap := cap_le hc w
  simp only [Window.size] at hcap
  unfold target
  simp only
  cases w <;> simp only [Window.base] at ha <;>
    simp only [ha, windowTarget, Window.base, Nat.add_sub_cancel_left, if_neg (Nat.not_le.2 hk)]
  · rw [if_neg (by omega), if_neg (by omega), if_pos (by omega)]
  · rw [if_neg (by omega), if_neg (by omega), if_neg (by omega), if_pos (by omega)]
  · rw [if_neg (by omega), if_neg (by omega), if_neg (by omega), if_neg (by omega)]

/-- DIGESTk stands at `0x00040 + 4k` (R22). -/
theorem target_digest (c : Config) {a : Addr} {k : Fin 8} (ha : a.toNat = 0x40 + 4 * k.val) :
    target c a = .reg (.digest k) := by
  have hk := k.isLt
  have hr : regAt a.toNat = some (.digest k) := by
    rw [ha]
    clear ha hk
    revert k
    decide
  unfold target
  simp only [hr]
  rw [if_neg (by omega), if_pos (by omega)]

/-- A register stands exactly at the offsets of R22. -/
theorem regAt_isSome (off : Nat) : (regAt off).isSome = true ↔ off ∈ regOffsets := by
  by_cases h : off < 0x60
  · revert off
    decide
  · have h1 : regAt off = none := by
      unfold regAt
      repeat rw [if_neg (by omega)]
    have h2 : off ∉ regOffsets := by
      simp only [regOffsets, List.mem_cons, List.not_mem_nil, or_false]
      omega
    simp [h1, h2]

theorem target_reg_lt {c : Config} {a : Addr} {r : Reg} (h : target c a = .reg r) :
    a.toNat < 0x10000 ∧ regAt a.toNat = some r := by
  unfold target at h
  simp only at h
  split at h
  · cases h
  split at h
  · rename_i hlt
    split at h
    · rename_i hr
      cases h
      exact ⟨hlt, hr⟩
    · cases h
  · unfold windowTarget at h
    repeat' split at h
    all_goals cases h

theorem target_of_regAt (c : Config) {a : Addr} {r : Reg} (h : regAt a.toNat = some r) : target c a = .reg r := by
  have hm : a.toNat ∈ regOffsets := (regAt_isSome _).1 (by rw [h]; rfl)
  simp only [regOffsets, List.mem_cons, List.not_mem_nil, or_false] at hm
  unfold target
  simp only [h]
  rw [if_neg (by omega), if_pos (by omega)]

/-- An access is refused exactly at the addresses that are misaligned or not legal (R63, R68). -/
theorem target_refused_iff {c : Config} (hc : c.wf = true) (a : Addr) :
    (∃ why, target c a = .refused why) ↔ (a.toNat % 4 ≠ 0 ∨ ¬mapped c a) := by
  constructor
  · rintro ⟨why, h⟩
    refine .inr ?_
    rintro (hm | ⟨w, k, ha, hk⟩)
    · obtain ⟨r, hr⟩ := Option.isSome_iff_exists.1 ((regAt_isSome _).2 hm)
      rw [target_of_regAt c hr] at h
      cases h
    · rw [target_window hc ha hk] at h
      cases h
  · intro h
    cases ht : target c a with
    | refused why => exact ⟨why, rfl⟩
    | reg r =>
      have hr := (target_reg_lt ht).2
      have hm : a.toNat ∈ regOffsets := (regAt_isSome _).1 (by rw [hr]; rfl)
      rcases h with h | h
      · simp only [regOffsets, List.mem_cons, List.not_mem_nil, or_false] at hm
        omega
      · exact absurd (.inl hm) h
    | buf w i =>
      obtain ⟨h1, h2, h3⟩ := target_buf ht
      have hb : w.base % 4 = 0 := by cases w <;> rfl
      rcases h with h | h
      · exact absurd h3 h
      · exact absurd (.inr ⟨w, i / 4, by omega, by omega⟩) h

/-- A write to a register is the register's write rule (R62). -/
theorem memWrite_reg {a : Addr} {r : Reg} {s : State} (h : target s.cfg a = .reg r) (v : Word) :
    memWrite a v s = regWrite r v s := by
  unfold memWrite
  rw [h]

/-- A write to a refused address sets ACCERR and nothing else (R255). -/
theorem memWrite_refused {a : Addr} {why : AccCause} {s : State} (h : target s.cfg a = .refused why) (v : Word) :
    memWrite a v s = refusedWrite s := by
  unfold memWrite
  rw [h]
  rfl

theorem memWrite_buf {a : Addr} {w : Window} {i : Nat} {s : State} (h : target s.cfg a = .buf w i) (v : Word) :
    memWrite a v s = if s.busy then refusedWrite s else writeBuf w i (le32Bytes v) s := by
  unfold memWrite
  rw [h]
  rfl

theorem memRead_refused {a : Addr} {why : AccCause} {s : State} (h : target s.cfg a = .refused why) :
    memRead a s = reply 0 (refusedWrite s) := by
  unfold memRead
  rw [h]
  rfl

theorem memRead_buf {a : Addr} {w : Window} {i : Nat} {s : State} (h : target s.cfg a = .buf w i) :
    memRead a s = if s.busy then replyDrawn s else reply (s.bufWord w i) s := by
  unfold memRead
  rw [h]

theorem memRead_digest {a : Addr} {k : Fin 8} {s : State} (h : target s.cfg a = .reg (.digest k)) :
    memRead a s = if s.busy then replyDrawn s else reply (s.digestWord k) s := by
  unfold memRead
  rw [h]

/-- A read of a register other than DIGEST0 to DIGEST7 gives its value in any sequencer state (R61, R70). -/
theorem memRead_reg {a : Addr} {r : Reg} {s : State} (h : target s.cfg a = .reg r) (hd : ∀ k, r ≠ .digest k) :
    memRead a s = reply (s.regWord r) s := by
  unfold memRead
  rw [h]
  cases r with
  | digest k => exact absurd rfl (hd k)
  | _ => rfl

theorem idle_not_busy {s : State} (h : s.seq = .idle) : s.busy = false := by simp [State.busy, h]

theorem busy_of_seq {s : State} (h : s.seq = .busy) : s.busy = true := by simp [State.busy, h]

end Sys2Proof.Machine
end

