-- ==== Sys2Proof/Laws/HostBoundary.lean ====
section
/-! SUPPORT. What the host's text conversions do: the bytes of a character determine it, and no other bytes decode. -/

namespace Sys2Proof.Machine

open Sys2Proof

theorem utf8Tail_toNat (v : Nat) : (utf8Tail v).toNat = 0x80 + v % 64 := by
  rw [utf8Tail, BitVec.toNat_ofNat]
  omega

theorem lead_toNat {v : Nat} (h : v < 256) : (BitVec.ofNat 8 v).toNat = v := by
  rw [BitVec.toNat_ofNat]
  omega

/-- Every character has a first byte. -/
theorem charBytes_cons (c : Char) : ∃ b rest, charBytes c = b :: rest := by
  unfold charBytes
  simp only
  split_ifs <;> exact ⟨_, _, rfl⟩

/-- Bytes that begin with those of a character are read as that character. -/
theorem leadChar_charBytes (c : Char) (rest : ByteSeq) : leadChar (charBytes c ++ rest) = c := by
  have hv : c.toNat < 0x110000 := c.valid.elim (fun h => Nat.lt_trans h (by decide)) (·.2)
  conv_rhs => rw [← Char.ofNat_toNat c]
  unfold charBytes
  simp only
  split_ifs <;>
    simp only [leadChar, List.cons_append, List.nil_append, List.getD_cons_zero, List.getD_cons_succ, utf8Tail_toNat]
  · rw [lead_toNat (by omega), if_pos (by omega)]
  · rw [lead_toNat (by omega), if_neg (by omega), if_pos (by omega)]
    congr 1
    omega
  · rw [lead_toNat (by omega), if_neg (by omega), if_neg (by omega), if_pos (by omega)]
    congr 1
    omega
  · rw [lead_toNat (by omega), if_neg (by omega), if_neg (by omega), if_neg (by omega)]
    congr 1
    omega

/-- What decoding does with a first character: it goes on behind it. -/
theorem decodeText_charBytes (n : Nat) (c : Char) (rest : ByteSeq) :
    decodeText (n + 1) (charBytes c ++ rest) = (decodeText n rest).map (c :: ·) := by
  obtain ⟨b, tail, hb⟩ := charBytes_cons c
  have hc : charBytes c ++ rest = b :: (tail ++ rest) := by rw [hb, List.cons_append]
  rw [hc, decodeText, ← hc]
  simp only [leadChar_charBytes]
  rw [if_pos (List.isPrefixOf_iff_prefix.2 (List.prefix_append ..)), List.drop_left]

@[simp] theorem textBytes_nil : textBytes [] = [] := rfl

@[simp] theorem textBytes_cons (c : Char) (text : List Char) :
    textBytes (c :: text) = charBytes c ++ textBytes text := List.flatMap_cons

@[simp] theorem readWords_length (w : Window) (k : Nat) : (readWords w k).length = k := by
  induction k with
  | zero => rfl
  | succ k ih => rw [readWords, List.length_append, ih, List.length_singleton]

end Sys2Proof.Machine
end

