-- ==== Sys2Proof/Laws/PerInstr.lean ====
section
/-! SUPPORT. Statements about every instruction as syntax, one lemma per constructor. -/

namespace Sys2Proof.Laws.LegalFields

open Sys2Proof

/-- The instruction's fields are legal (R90 to R93), and they are the fields of its word. -/
def Statement (i : Instr) : Prop := i.wellFormed = true ∧ splitWord (encode i) = i.fields

theorem hash (src : Src) : Statement (.hash src) := by cases src <;> exact ⟨rfl, rfl⟩

theorem iterhash (src : Src) : Statement (.iterhash src) := by cases src <;> exact ⟨rfl, rfl⟩

theorem encrypt : Statement .encrypt := ⟨rfl, rfl⟩

theorem decrypt : Statement .decrypt := ⟨rfl, rfl⟩

end Sys2Proof.Laws.LegalFields
end

