-- ==== Sys2Proof/Tests/Slice0.lean ====
section
/-! SUPPORT. Tests on small states, and a witness for every statement that has hypotheses. Expected values are those of
95_test_vectors.md, of the tables of 30_encoding.md and of the rules named. -/

namespace Sys2Proof.Machine.Tests

open Sys2Proof Sys2Proof.Machine

/-! ### Well-formedness: an ill-formed term for each check -/

theorem test_wf_accepts : CmdFields.wellFormed ⟨0x02, 3, 0⟩ = true := by decide
theorem test_wf_rsvd : CmdFields.wellFormed ⟨0x01, 0, 1⟩ = false ∧ CmdFields.rsvdOk ⟨0x01, 0, 1⟩ = false := by decide
theorem test_wf_op : CmdFields.wellFormed ⟨0x05, 0, 0⟩ = false ∧ CmdFields.opOk ⟨0x05, 0, 0⟩ = false := by decide
theorem test_wf_op_zero : CmdFields.wellFormed ⟨0x00, 0, 0⟩ = false := by decide
theorem test_wf_src : CmdFields.wellFormed ⟨0x03, 1, 0⟩ = false ∧ CmdFields.srcOk ⟨0x03, 1, 0⟩ = false := by decide

/-! ### Decoding: words written out from the fields of R90 (RSVD, SRC, OP), and the decoding table of 95 section 6 -/

theorem test_decode_hash : decode 0b0000000000000000000000_00_00000001#32 = .command (.hash .key) ∧
    decode 0b0000000000000000000000_01_00000001#32 = .command (.hash .pt) ∧
    decode 0b0000000000000000000000_10_00000001#32 = .command (.hash .ct) ∧
    decode 0b0000000000000000000000_11_00000001#32 = .command (.hash .digest) := by decide
theorem test_decode_iterhash : decode 0b0000000000000000000000_00_00000010#32 = .command (.iterhash .key) ∧
    decode 0b0000000000000000000000_01_00000010#32 = .command (.iterhash .pt) ∧
    decode 0b0000000000000000000000_10_00000010#32 = .command (.iterhash .ct) ∧
    decode 0b0000000000000000000000_11_00000010#32 = .command (.iterhash .digest) := by decide
theorem test_decode_encrypt : decode 0b0000000000000000000000_00_00000011#32 = .command .encrypt := by decide
theorem test_decode_decrypt : decode 0b0000000000000000000000_00_00000100#32 = .command .decrypt := by decide
theorem test_decode_illegal : decode 0x00000000 = .illegal .unknownOp ∧ decode 0x00000005 = .illegal .unknownOp ∧
    decode 0x000000FF = .illegal .unknownOp ∧ decode 0x00000103 = .illegal .srcNotZero ∧
    decode 0x00000403 = .illegal .rsvdSet ∧ decode 0x80000001 = .illegal .rsvdSet := by decide
theorem test_encode_table : ∀ p ∈ legalTable, encode p.2 = p.1 := by decide
theorem test_table_word : decodeTableWord 32 0x302 = some (.iterhash .digest) ∧ decodeTableWord 32 0x403 = none := by decide

/-! ### The hash core and the chain (95 sections 2 and 3) -/

/-- H2: "abc". -/
theorem test_sha256_abc : (sha256 [0x61, 0x62, 0x63]).toList = [
    0xba, 0x78, 0x16, 0xbf, 0x8f, 0x01, 0xcf, 0xea, 0x41, 0x41, 0x40, 0xde, 0x5d, 0xae, 0x22, 0x23,
    0xb0, 0x03, 0x61, 0xa3, 0x96, 0x17, 0x7a, 0x9c, 0xb4, 0x10, 0xff, 0x61, 0xf2, 0x00, 0x15, 0xad] := by decide +kernel

/-- H5: 56 bytes of 0x61, two blocks. -/
theorem test_sha256_two_blocks : (sha256 (List.replicate 56 0x61)).toList.take 8 =
    [0xb3, 0x54, 0x39, 0xa4, 0xac, 0x6f, 0x09, 0x48] := by decide +kernel

/-- H2's schedule: W_16 to W_19 and W_63. -/
theorem test_schedule_abc : ((shaSchedule (shaPad [0x61, 0x62, 0x63])).drop 16).take 4 =
    [0x61626380, 0x000f0000, 0x7da86405, 0x600003c6] ∧
    (shaSchedule (shaPad [0x61, 0x62, 0x63])).getD 63 0 = 0x12b1edeb := by decide +kernel

/-- I10: "password" in a test build with two applications. -/
theorem test_iterated_twice : (iteratedHash 2 [0x70, 0x61, 0x73, 0x73, 0x77, 0x6f, 0x72, 0x64]).toList.take 4 =
    [0x73, 0x64, 0x1c, 0x99] := by decide +kernel

/-- R114's table: 64 constants, the first and the last of its first and last rows. -/
theorem test_round_constants : shaK.length = 64 ∧ shaK.getD 0 0 = 0x428a2f98 ∧ shaK.getD 7 0 = 0xab1c5ed5 ∧
    shaK.getD 56 0 = 0x748f82ee ∧ shaK.getD 63 0 = 0xc67178f2 := by decide

/-! ### Commands, one engine step each, in a test build with one application (95 section 5, E9; R122, R143, R181) -/

/-- Every source set: Key "password", Plaintext "AB", Ciphertext `1f ca`; ITER_COUNT = 1. -/
def ready : State :=
  { State.reset with
    cfg := ⟨1, 256, 4096⟩
    status := ⟨false, false, .ok, true, true, true, true⟩
    keyLen := 8
    ptLen := 2
    ctLen := 2
    digest := Vector.replicate 32 0
    mem := [
      (0x10000, 0x70), (0x10001, 0x61), (0x10002, 0x73), (0x10003, 0x73), (0x10004, 0x77), (0x10005, 0x6f),
      (0x10006, 0x72), (0x10007, 0x64), (0x20000, 0x41), (0x20001, 0x42), (0x30000, 0x1f), (0x30001, 0xca)] }

/-- What a test looks at in the state a step answers; `none` where the step stops. -/
def sees {α : Type} (f : State → α) : Out → Option α
  | .next t => some (f t)
  | _ => none

/-- H7: the first four digest bytes, STATUS after OK. -/
theorem test_hash_key : sees (fun t => (t.digest.toList.take 4, t.statusWord)) (exec (.hash .key) ready) =
    some ([0x5e, 0x88, 0x48, 0x98], 0x000F0002) := by decide +kernel

/-- HC4: HASH DIGEST after reset is SRC_NOT_SET. -/
theorem test_hash_not_set : sees State.statusWord (exec (.hash .digest) State.reset) = some 0x00000302 := by decide

/-- H9: 32 bytes of zero, one application. -/
theorem test_iterhash_digest : sees (fun t => t.digest.toList.take 4) (exec (.iterhash .digest) ready) =
    some [0x66, 0x68, 0x7a, 0xad] := by decide +kernel

/-- R252. -/
theorem test_iterhash_not_set : sees State.statusWord (exec (.iterhash .key) State.reset) = some 0x00000202 := by decide

/-- E9: the ciphertext `1f ca`. -/
theorem test_encrypt : sees (fun t => (t.session .ct, t.ctLen, t.statusWord)) (exec .encrypt ready) =
    some ([0x1f, 0xca], 2, 0x000F0002) := by decide +kernel

/-- E13: the key is reported before the plaintext. -/
theorem test_encrypt_precedence : sees State.statusWord (exec .encrypt State.reset) = some 0x00000202 := by decide

theorem test_decrypt : sees (fun t => (t.session .pt, t.ptLen)) (exec .decrypt ready) =
    some ([0x41, 0x42], 2) := by decide +kernel

/-- E12. -/
theorem test_decrypt_not_set :
    sees State.statusWord (exec .decrypt (setLen .key 0 State.reset)) = some 0x00010302 := by decide

/-! ### Fetch: the placed word is the next step's command -/

theorem test_first_instruction : step (State.reset.withFetchWord 32 0x00000301) =
    exec (.hash .digest) (State.reset.withFetchWord 32 0x00000301) := rfl
theorem test_fetch_before_events :
    sees (fun t => (t.statusWord, t.events)) (step (State.withFetchWord { ready with events := [.reset] } 32 0x00000000)) =
      some (0x000F0102, [.reset]) := by decide

/-! ### Bus accesses (95 section 6) -/

/-- The last reply and STATUS after a read. -/
def readOf (a : Addr) (s : State) : Option Word × Word := ((memRead a s).replies.head?, (memRead a s).statusWord)

theorem test_reset_registers : readOf 0x00000 State.reset = (some 0x57434B01, 0) ∧
    readOf 0x00004 State.reset = (some 0x012000F2, 0) ∧ readOf 0x00008 State.reset = (some 0x00000100, 0) ∧
    readOf 0x0000C State.reset = (some 0x00001000, 0) ∧ readOf 0x00018 State.reset = (some 0, 0) := by decide
theorem test_a1_a2_a5 : readOf 0x00002 State.reset = (some 0, 4) ∧ readOf 0x0001C State.reset = (some 0, 4) ∧
    readOf 0x10100 State.reset = (some 0, 4) := by decide
theorem test_a4_last_key_word : (memRead 0x100FC State.reset).statusWord = 0 := by decide
theorem test_a3_ro_write : (memWrite 0x00000 0 State.reset).statusWord = 4 := by decide
theorem test_a6_a7_len : ((memWrite 0x00024 4096 State.reset).ptLen, (memWrite 0x00024 4096 State.reset).statusWord) =
    (4096, 0x00020000) ∧
    ((memWrite 0x00024 4097 State.reset).ptLen, (memWrite 0x00024 4097 State.reset).statusWord) = (0, 4) := by decide
theorem test_a8_empty_key : (memWrite 0x00020 0 State.reset).statusWord = 0x00010000 := by decide
theorem test_a9_busy_write : memWrite 0x20000 1 (accept 3 ready) = refusedWrite (accept 3 ready) := rfl
theorem test_a10_busy_status : (readOf 0x00014 (accept 3 ready)).1 = some 0x000F0001 := by decide
theorem test_a12_status_clear :
    (memWrite 0x00014 0xFFFFFFFF (refusedWrite (complete .srcNotSet ready))).statusWord = 0x000F0300 := by decide
theorem test_a13_ctrl : (readOf 0x00010 (memWrite 0x00010 0xFFFFFFFF State.reset)).1 = some 1 := by decide

/-- R64: "password" as two bus words. -/
theorem test_write_lanes :
    (memWrite 0x10004 0x64726F77 (memWrite 0x10000 0x73736170 State.reset)).bufBytes .key 8 =
      [0x70, 0x61, 0x73, 0x73, 0x77, 0x6f, 0x72, 0x64] := by decide
theorem test_read_lanes : (readOf 0x10004 ready).1 = some 0x64726F77 := by decide

/-- R65: DIGEST0 and DIGEST7 of H2's digest read in the block's lanes. -/
theorem test_digest_lanes :
    State.digestWord { ready with digest := #v[
      0xba, 0x78, 0x16, 0xbf, 0x8f, 0x01, 0xcf, 0xea, 0x41, 0x41, 0x40, 0xde, 0x5d, 0xae, 0x22, 0x23,
      0xb0, 0x03, 0x61, 0xa3, 0x96, 0x17, 0x7a, 0x9c, 0xb4, 0x10, 0xff, 0x61, 0xf2, 0x00, 0x15, 0xad] } 0 = 0xBF1678BA ∧
    State.digestWord { ready with digest := #v[
      0xba, 0x78, 0x16, 0xbf, 0x8f, 0x01, 0xcf, 0xea, 0x41, 0x41, 0x40, 0xde, 0x5d, 0xae, 0x22, 0x23,
      0xb0, 0x03, 0x61, 0xa3, 0x96, 0x17, 0x7a, 0x9c, 0xb4, 0x10, 0xff, 0x61, 0xf2, 0x00, 0x15, 0xad] } 7 = 0xAD1500F2 := by
  decide

/-- R291: reset while BUSY. -/
theorem test_reset_event : sees (fun t => (t.seq, t.statusWord, t.keyLen)) (perform .reset (accept 3 ready)) =
    some (.idle, 0, 0) := by decide

/-! ### Host-side conventions (95 section 7; 30_encoding.md R98) -/

theorem test_hex_encode : hexEncode [0x00, 0xab, 0xff, 0x0f] = ['0', '0', 'a', 'b', 'f', 'f', '0', 'f'] := by decide
theorem test_hex_decode : hexDecode ['D', '8', '2', '4'] = .bytes [0xd8, 0x24] ∧ hexDecode [] = .bytes [] := by decide
theorem test_hex_errors : hexDecode ['1'] = .error .oddLength ∧ hexDecode ['z', 'z'] = .error .invalidDigit ∧
    hexDecode ['0', 'g'] = .error .invalidDigit ∧ hexDecode ['z'] = .error .oddLength := by decide
/-- R231's example, and one character of each longer length with its bytes in the UTF-8 standard's table. -/
theorem test_text_bytes : textBytes ['p', 'a', 's', 's', 'w', 'o', 'r', 'd'] = [0x70, 0x61, 0x73, 0x73, 0x77, 0x6f, 0x72, 0x64] ∧
    charBytes 'é' = [0xC3, 0xA9] ∧ charBytes '€' = [0xE2, 0x82, 0xAC] ∧ charBytes '𝄞' = [0xF0, 0x9D, 0x84, 0x9E] := by decide
/-- A truncated sequence, a bare continuation byte, an overlong form, a surrogate and a code point beyond the last are no text. -/
theorem test_decode_text : decodeText 5 [0x41, 0xE2, 0x82, 0xAC, 0x42] = some ['A', '€', 'B'] ∧
    ∀ b ∈ ([[0xE2, 0x82], [0x80], [0xC0, 0x80], [0xED, 0xA0, 0x80], [0xF4, 0x90, 0x80, 0x80]] : List ByteSeq),
      decodeText b.length b = none := by decide
theorem test_load_bytes : loadBytes .key 0 [0x70, 0x61, 0x73, 0x73, 0x77] =
    [.write 0x10000 0x73736170, .write 0x10004 0x00000077] := by decide
theorem test_replied_text : decodeText 2 (repliedBytes 2 [0xFFFF4241, 0x12345678]) = some ['A', 'B'] := by decide
/-- R231: the empty key is legal, a length of 0. -/
theorem test_load_text : loadText .key [] = [.write 0x00020 0] := by decide

/-! ### Witnesses: concrete states and operands that meet the hypotheses of each statement -/

theorem ready_inv : BlockInv ready where
  cfg_ok := by decide
  mem_rising := by decide
  mem_mapped := by
    have h : ∀ c ∈ ready.mem, (0x10000 ≤ c.1 ∧ c.1 < 0x10000 + 256) ∨ (0x20000 ≤ c.1 ∧ c.1 < 0x20000 + 4096) ∨
        (0x30000 ≤ c.1 ∧ c.1 < 0x30000 + 4096) := by decide
    exact fun c hc => (h c hc).elim (⟨.key, ·⟩) (Or.elim · (⟨.pt, ·⟩) (⟨.ct, ·⟩))
  len_fits := by intro w; cases w <;> decide
  unset_empty := by intro w; cases w <;> decide
  busy_clear := by intro h; cases h
  code_real := by decide
  draws_made := by intro w; cases w <;> decide

/-- ENCRYPT accepted on `ready`. -/
def running : State := accept 0x00000003 ready

theorem witness_EngineStepRunsDecodedCommand :
    (running.seq = .busy ∧ decode running.curCmd = .command .encrypt ∧ running.events = []) ∧
      (State.seq { running with events := [.engine, .reset] } = .busy ∧
        State.events { running with events := [.engine, .reset] } = .engine :: [.reset]) := by decide
theorem witness_PlacedWordRunsNext : decodeTableWord 32 0x00000301 = some (.hash .digest) := by decide
theorem witness_HashCompletes : ready.srcValid .key = true ∧ ready.srcValid .pt = true ∧ ready.srcValid .ct = true ∧
    ready.srcValid .digest = true := by decide
theorem witness_IterhashCompletes : ready.srcValid .key = true ∧ ready.srcValid .digest = true := by decide
theorem witness_EncryptCompletes : ready.status.keyValid = true ∧ ready.status.ptValid = true ∧
    1 < ready.ptLen.toNat ∧ ready.ptLen.toNat ≤ 2 ∧ 0xFFFF < Window.size := by decide
theorem witness_DecryptCompletes : ready.status.keyValid = true ∧ ready.status.ctValid = true ∧
    1 < ready.ctLen.toNat ∧ ready.ctLen.toNat ≤ 2 ∧ 0xFFFF < Window.size := by decide
theorem witness_HashCommandsFrame : ∃ t, exec (.iterhash .digest) ready = .next t := ⟨_, rfl⟩
theorem witness_TransformFrame : BlockInv ready ∧ (∃ t, exec .encrypt ready = .next t) ∧ ∃ t, exec .decrypt ready = .next t :=
  ⟨ready_inv, ⟨_, rfl⟩, ⟨_, rfl⟩⟩
theorem witness_FailedCommandChangesOnlyStatus :
    (accept 3 State.reset).seq = .busy ∧ ∃ t, engineTurn (accept 3 State.reset) = .next t ∧ t.status.errCode ≠ .ok :=
  ⟨rfl, _, rfl, by decide⟩
theorem witness_ErrorPrecedence :
    (∃ t, engineTurn (accept 0 ready) = .next t) ∧ decode (accept 0 ready).curCmd = .illegal .unknownOp ∧
    (∃ t, engineTurn (accept 3 State.reset) = .next t) ∧ decode (accept 3 State.reset).curCmd = .command .encrypt ∧
    State.reset.status.keyValid = false ∧ State.reset.status.ptValid = false ∧
    (∃ t, engineTurn (accept 0x301 State.reset) = .next t) ∧ usesKey (.hash .digest) = false ∧
    dataSet State.reset (.hash .digest) = false ∧ (∃ t, engineTurn running = .next t) ∧ dataSet ready .encrypt = true ∧
    ready.status.keyValid = true :=
  ⟨⟨_, rfl⟩, by decide, ⟨_, rfl⟩, by decide, rfl, rfl, ⟨_, rfl⟩, rfl, rfl, ⟨_, rfl⟩, rfl, rfl⟩
theorem witness_IllegalCommandReports : (0x00000400#32).extractLsb' 10 22 ≠ 0 ∧
    (0x00000300#32).extractLsb' 0 8 = 0x00#8 ∧ 0x05#8 ≤ (0x00000005#32).extractLsb' 0 8 ∧
    ((0x00000103#32).extractLsb' 8 2 ≠ 0 ∧ (0x00000103#32).extractLsb' 0 8 = 0x03#8) ∧
    ((0x00000304#32).extractLsb' 8 2 ≠ 0 ∧ (0x00000304#32).extractLsb' 0 8 = 0x04#8) := by decide
theorem witness_IllegalWordsCharacterised : (0x80000001#32).extractLsb' 10 22 ≠ 0 ∧
    (0x00000104#32).extractLsb' 0 8 = 0x04#8 ∧ (0x00000104#32).extractLsb' 8 2 ≠ 0 := by decide
theorem witness_busy_states : running.seq = .busy ∧ running.cfg.wf = true ∧ Event.reset ∉ running.events := by decide
theorem witness_EngineTurnCompletes : running.seq = .busy := rfl
theorem witness_CommandAccepted : ready.seq = .idle := rfl
theorem witness_SecondCommandRefused : running.seq = .busy := rfl
theorem witness_AcceptedCommandEventuallyCompletes :
    State.seq { running with events := [.read 0x00014, .engine] } = .busy ∧
      Event.reset ∉ State.events { running with events := [.read 0x00014, .engine] } := by decide
theorem witness_OperandsFixedWhileBusy : running.seq = .busy ∧ Event.write 0x20000 7 ≠ .engine ∧
    Event.write 0x20000 7 ≠ .reset ∧ ∃ t, perform (.write 0x20000 7) running = .next t :=
  ⟨rfl, by decide, by decide, _, rfl⟩
theorem witness_IdentificationRegisters : State.reset.cfg.wf = true ∧ State.reset.cfg = Config.production := by decide
theorem witness_ConfigRegisterFields : State.reset.cfg.wf = true ∧ State.reset.cfg = Config.production := by decide
theorem witness_ReadOnlyWritesRefused :
    (0x0005C : Addr).toNat = 0x40 + 4 * (7 : Fin 8).val ∧ (0x00040 : Addr).toNat = 0x40 + 4 * (0 : Fin 8).val := by decide
theorem witness_InterruptLifeCycle : (0x2#32).getLsbD 1 = true ∧ ready.seq = .idle ∧ (0xFFFFFFFE#32).getLsbD 0 = false ∧
    (complete .ok ready).status.done = true ∧ (0x1#32).getLsbD 0 = true ∧ running.seq = .busy := by decide
theorem witness_LengthRegisterWrite : ready.cfg.wf = true ∧ running.seq = .busy ∧ ready.seq = .idle ∧
    Window.cap ready.cfg .key < (257#32).toNat ∧ (256#32).toNat ≤ Window.cap ready.cfg .key ∧ Window.pt ≠ .key := by decide
theorem witness_BufferWordWriteThenRead : ready.cfg.wf = true ∧ ready.seq = .idle ∧
    (0x100FC : Addr).toNat = Window.key.base + 4 * 63 ∧ 4 * 63 + 3 < Window.cap ready.cfg .key ∧
    (255 < Window.cap ready.cfg .pt ∧ ¬(Window.pt = .key ∧ 4 * 63 ≤ 255 ∧ 255 < 4 * 63 + 4)) := by decide
theorem witness_DigestWordLanes : ready.seq = .idle ∧ (0x0005C : Addr).toNat = 0x40 + 4 * (7 : Fin 8).val := by decide
theorem witness_BusyLockout : running.cfg.wf = true ∧ running.seq = .busy ∧
    (0x30FFC : Addr).toNat = Window.ct.base + 4 * 1023 ∧ 4 * 1023 + 3 < Window.cap running.cfg .ct ∧
    (0x00040 : Addr).toNat = 0x40 + 4 * (0 : Fin 8).val := by decide
theorem witness_IllegalAddressesRefused : ready.cfg.wf = true ∧ (0x00002 : Addr).toNat % 4 ≠ 0 ∧
    ¬mapped ready.cfg 0x0001C ∧ ¬mapped ready.cfg 0x10100 ∧ mapped ready.cfg 0x100FC ∧ mapped ready.cfg 0x0005C := by
  have out : ∀ a : Addr, (∃ why, target ready.cfg a = .refused why) → a.toNat % 4 = 0 → ¬mapped ready.cfg a := fun a h h4 =>
    ((target_refused_iff (by decide) a).1 h).resolve_left (fun h => h h4)
  exact ⟨by decide, by decide, out _ ⟨.unmapped, rfl⟩ (by decide), out _ ⟨.unmapped, rfl⟩ (by decide),
    .inr ⟨.key, 63, by decide, by decide⟩, .inl (by decide)⟩
theorem witness_ReadsHaveNoSideEffect : (refusedWrite ready).status.accErr = true ∧ ready.seq = .idle ∧
    ready.cfg.wf = true ∧ mapped ready.cfg 0x0005C ∧ ¬mapped ready.cfg 0x0001C :=
  ⟨rfl, rfl, by decide, witness_IllegalAddressesRefused.2.2.2.2.2, witness_IllegalAddressesRefused.2.2.1⟩
theorem witness_SessionsIndependent : ready.cfg.wf = true ∧ Window.key ≠ .ct ∧
    (0x30FFC : Addr).toNat = Window.ct.base + 4 * 1023 ∧ 4 * 1023 + 3 < Window.cap ready.cfg .ct ∧
    255 < Window.cap ready.cfg .key ∧ Instr.hash .key ≠ .encrypt ∧ Instr.hash .key ≠ .decrypt ∧
    ∃ t, exec (.hash .key) ready = .next t :=
  ⟨by decide, by decide, by decide, by decide, by decide, by decide, by decide, _, rfl⟩
theorem witness_ValidBitsStick : Event.engine ≠ .reset ∧ running.validOf .key = true ∧ running.status.digestValid = true ∧
    ∃ t, perform .engine running = .next t := ⟨by decide, rfl, rfl, _, rfl⟩
theorem witness_ShaBlockCount : 55 ≤ 55 ∧ 56 ≤ 56 ∧ 56 ≤ 119 ∧ 119 ≤ 119 := by decide
theorem witness_ShaScheduleRecurrence : 15 < 16 ∧ 16 ≤ 16 ∧ 63 < 64 := by decide
theorem witness_IteratedHashIsHashPower : 1 ≤ 242 := by decide
theorem witness_HashDigestRepeats : ready.status.digestValid = true ∧ ready.status.keyValid = true ∧
    0 + 1 = ready.cfg.iterCount := by decide
theorem witness_KeystreamClosedForm : 32 < 33 := by decide
theorem witness_KeystreamLength : 0 < 33 := by decide
theorem witness_KeystreamPrefix : 31 ≤ 64 := by decide
theorem witness_KeystreamSizingChangesNothing : ([0x41, 0x42] : ByteSeq).length ≤ 8 := by decide
theorem witness_TransformIsByteSerial : 1 < ([0x41, 0x42] : ByteSeq).length ∧ 1 < ([0x99, 0x66] : ByteSeq).length ∧
    ([0x41, 0x42] : ByteSeq)[1]? = ([0x00, 0x42] : ByteSeq)[1]? := by decide

/-- `ready` with 64 zero bytes as the Plaintext. -/
def zeros : State := writeBuf .pt 0 (List.replicate 64 0) { ready with ptLen := 64 }

theorem witness_KeystreamChain : zeros.status.keyValid = true ∧ zeros.status.ptValid = true ∧ zeros.ptLen = 64#17 ∧
    (∀ i < 64, zeros.bufByte .pt i = 0) ∧ (zeros.lenOf .key).toNat ≤ Window.size := by decide +kernel
theorem witness_TransformRoundTrip : BlockInv ready ∧ ready.status.keyValid = true ∧ ready.status.ptValid = true ∧
    ready.status.ctValid = true ∧ BlockInv { ready with ptLen := 0 } ∧
    ∀ i < (State.ptLen { ready with ptLen := 0 }).toNat, State.bufByte { ready with ptLen := 0 } .pt i = 0 :=
  ⟨ready_inv, rfl, rfl, rfl,
    { ready_inv with
      len_fits := by intro w; cases w <;> decide
      unset_empty := by intro w; cases w <;> decide },
    by decide⟩
theorem witness_CiphertextDependsOnKeyAndPlaintextOnly :
    ready.session .key = State.session { ready with ctLen := 0, draws := 9 } .key ∧
    ready.session .pt = State.session { ready with ctLen := 0, draws := 9 } .pt ∧ ready.status.keyValid = true ∧
    ready.status.ptValid = true ∧ (∃ t, exec .encrypt ready = .next t) ∧
    ∃ u, exec .encrypt { ready with ctLen := 0, draws := 9 } = .next u :=
  ⟨rfl, rfl, rfl, rfl, ⟨_, rfl⟩, ⟨_, rfl⟩⟩
theorem witness_ResetEndsRunningCommand : running.seq = .busy ∧ ∃ u, perform .engine running = .next u ∧ u.seq = .idle :=
  ⟨rfl, _, rfl, rfl⟩
theorem witness_IdleBlockWaits : ready.seq = .idle ∧ ready.events = [] ∧
    State.events { ready with events := [.engine] } = .engine :: [] := by decide
theorem witness_StepKeepsInvariant : BlockInv ready ∧ ∃ t, step ready = .next t := ⟨ready_inv, _, rfl⟩
theorem witness_HexDecodeErrors : ['1'].length % 2 = 1 ∧ ['z', 'z'].length % 2 = 0 ∧
    (∃ c ∈ ['0', 'g'], ¬(('0' ≤ c ∧ c ≤ '9') ∨ ('a' ≤ c ∧ c ≤ 'f') ∨ ('A' ≤ c ∧ c ≤ 'F'))) ∧
    ∀ c ∈ ['D', 'f'], ('0' ≤ c ∧ c ≤ '9') ∨ ('a' ≤ c ∧ c ≤ 'f') ∨ ('A' ≤ c ∧ c ≤ 'F') := by
  refine ⟨rfl, rfl, ⟨'g', by simp, by decide⟩, fun c hc => ?_⟩
  simp only [List.mem_cons, List.not_mem_nil, or_false] at hc
  rcases hc with rfl | rfl <;> decide
/-- A byte that begins no character is the UTF-8 of no text. -/
theorem no_text_0x80 (text : List Char) : textBytes text ≠ [0x80] := by
  intro h
  cases text with
  | nil => cases h
  | cons c rest =>
    have lead : ∀ v : Nat, ∀ tail : ByteSeq, ¬(BitVec.ofNat 8 v :: tail = [0x80#8] ∧ v % 256 ≠ 0x80) := by
      rintro v tail ⟨hv, hne⟩
      have := congrArg BitVec.toNat (List.cons.inj hv).1
      simp only [BitVec.toNat_ofNat] at this
      omega
    have hv : c.toNat < 0x110000 := c.valid.elim (fun h => Nat.lt_trans h (by decide)) (·.2)
    simp only [textBytes, List.flatMap_cons, charBytes] at h
    split_ifs at h <;> refine lead _ _ ⟨h, ?_⟩ <;> omega

/-- `ready` about to be read: the two bytes of its Plaintext "AB". -/
theorem witness_HostReadsTextBack : (∀ text, textBytes text ≠ [0x80]) ∧
    State.cfg { ready with events := readWords .pt (wordsFor 2) } = ready.cfg ∧ ready.cfg.wf = true ∧ ready.seq = .idle ∧
    2 ≤ Window.cap ready.cfg .pt ∧ readWords .pt (wordsFor 2) = [.read 0x20000] ∧
    ready.bufBytes .pt 2 = textBytes ['A', 'B'] :=
  ⟨no_text_0x80, by decide, by decide, by decide, by decide, by decide, by decide⟩

end Sys2Proof.Machine.Tests
end

section
/-! PROOFS. The statements of the state family (10_state.md): the identification registers, CFG, IRQ, and the independence of
the three buffers. -/

namespace Sys2Proof.Machine

open Sys2Proof

/-! ### Register words and read-only registers (R22 to R25, R69) -/

/-- R69: the registers whose every write is refused. -/
theorem memWrite_readOnly {a : Addr} {r : Reg} {s : State} (h : target s.cfg a = .reg r)
    (hr : r = .id ∨ r = .cfg ∨ r = .keyCap ∨ r = .dataCap ∨ ∃ k, r = .digest k) (v : Word) :
    memWrite a v s = refusedWrite s := by
  rw [memWrite_reg h]
  obtain rfl | rfl | rfl | rfl | ⟨k, rfl⟩ := hr <;> rfl

/-- R6, R7: a capacity is a 17-bit number. -/
theorem cap_lt {c : Config} (h : c.wf = true) (w : Window) : w.cap c < 2 ^ 17 :=
  Nat.lt_of_le_of_lt (cap_le h w) (by decide)

/-- R7: `ITER_COUNT` is a 16-bit number. -/
theorem iterCount_lt {c : Config} (h : c.wf = true) : c.iterCount < 2 ^ 16 := by
  simp only [Config.wf, Bool.and_eq_true, decide_eq_true_eq] at h
  obtain ⟨⟨⟨_, hlt⟩, _⟩, _⟩ := h
  exact hlt

/-- R25: bits 16:0 of a word hold a 17-bit number in full, and bits 31:17 are then 0. -/
theorem word_of_17_bits {n : Nat} (h : n < 2 ^ 17) :
    ((BitVec.ofNat 32 n).extractLsb' 0 17).toNat = n ∧ (BitVec.ofNat 32 n).extractLsb' 17 15 = 0#15 := by
  constructor
  · simp only [BitVec.extractLsb'_toNat, BitVec.toNat_ofNat, Nat.shiftRight_zero]
    omega
  · apply BitVec.eq_of_toNat_eq
    rw [BitVec.extractLsb'_toNat, BitVec.toNat_ofNat, Nat.shiftRight_eq_div_pow, BitVec.toNat_ofNat]
    omega

/-- R23: CFG is one number, HASH_ID and BLOCK_BYTES standing above the 16 bits of `ITER_COUNT`. -/
theorem cfgWord_toNat {c : Config} (h : c.iterCount < 2 ^ 16) : (cfgWord c).toNat = 0x01200000 + c.iterCount := by
  simp only [cfgWord, BitVec.toNat_append, BitVec.toNat_ofNat, Config.hashId, Config.blockBytes]
  rw [Nat.mod_eq_of_lt h, ← Nat.shiftLeft_add_eq_or_of_lt h]
  rfl

/-- R23: the three fields of CFG. -/
theorem cfgWord_fields {c : Config} (h : c.iterCount < 2 ^ 16) :
    ((cfgWord c).extractLsb' 0 16).toNat = c.iterCount ∧ (cfgWord c).extractLsb' 16 8 = 0x20#8 ∧
      (cfgWord c).extractLsb' 24 8 = 1#8 := by
  have field : ∀ i n, ((cfgWord c).extractLsb' i n).toNat = (0x01200000 + c.iterCount) / 2 ^ i % 2 ^ n := fun i n => by
    rw [BitVec.extractLsb'_toNat, cfgWord_toNat h, Nat.shiftRight_eq_div_pow]
  refine ⟨?_, BitVec.eq_of_toNat_eq ?_, BitVec.eq_of_toNat_eq ?_⟩ <;> rw [field]
  · omega
  · simp only [BitVec.toNat_ofNat]
    omega
  · simp only [BitVec.toNat_ofNat]
    omega

/-- Settles O22: each read is the register's word, each word holds a 17-bit capacity, each write meets a read-only register. -/
theorem identificationRegisters : Obligations.IdentificationRegisters := by
  intro s hwf
  obtain ⟨hkey, hkey0⟩ := word_of_17_bits (cap_lt hwf .key)
  obtain ⟨hdata, hdata0⟩ := word_of_17_bits (cap_lt hwf .pt)
  refine ⟨memRead_reg (target_id _) (by simp), memRead_reg (target_keyCap _) (by simp),
    memRead_reg (target_dataCap _) (by simp), hkey, hkey0, hdata, hdata0, ?_, fun v => ⟨?_, ?_, ?_⟩⟩
  · intro hc
    simp only [State.regWord, hc]
    exact ⟨rfl, rfl⟩
  · exact memWrite_readOnly (target_id _) (by simp) v
  · exact memWrite_readOnly (target_keyCap _) (by simp) v
  · exact memWrite_readOnly (target_dataCap _) (by simp) v

/-- Settles O23, by the fields of CFG's word. -/
theorem configRegisterFields : Obligations.ConfigRegisterFields := by
  intro s hwf
  obtain ⟨hiter, hblock, hhash⟩ := cfgWord_fields (iterCount_lt hwf)
  refine ⟨memRead_reg (target_cfg _) (by simp), hiter, hblock, hhash, ?_, memWrite_readOnly (target_cfg _) (by simp)⟩
  intro hc
  simp only [State.regWord, hc]
  rfl

/-! ### The interrupt line (R42) -/

/-- CTRL.IE is bit 0 of CTRL (R26). -/
theorem ctrl_bit_ie (s : State) : (s.regWord .ctrl).getLsbD 0 = s.ctrlIE := by
  simp [State.regWord]

/-- STATUS.DONE is bit 1 of STATUS (R27). -/
theorem status_bit_done (s : State) : (s.regWord .status).getLsbD 1 = s.status.done := by
  show BitVec.getLsbD (_ ++ BitVec.ofBool s.status.done ++ BitVec.ofBool s.busy) 1 = _
  rw [BitVec.getLsbD_append, BitVec.getLsbD_append]
  simp

/-- Settles O27, by the places of IE and DONE in their registers. -/
theorem irqIsEnableAndDone : Obligations.IrqIsEnableAndDone := by
  intro s
  rw [ctrl_bit_ie, status_bit_done, State.irq]

/-! ### The buffers are independent (R39) -/

/-- From `s` to `t` the buffer `u` keeps every byte, its length and its valid bit. -/
structure KeepsBuffer (u : Window) (s t : State) : Prop where
  bytes : ∀ i, t.bufByte u i = s.bufByte u i
  len : t.lenOf u = s.lenOf u
  valid : t.validOf u = s.validOf u

theorem KeepsBuffer.trans {u : Window} {r s t : State} (h : KeepsBuffer u r s) (h' : KeepsBuffer u s t) :
    KeepsBuffer u r t where
  bytes i := (h'.bytes i).trans (h.bytes i)
  len := h'.len.trans h.len
  valid := h'.valid.trans h.valid

theorem keepsBuffer_refuseAccess (u : Window) (why : AccCause) (s : State) : KeepsBuffer u s (refuseAccess why s) where
  bytes := bufByte_congr u rfl (refuseAccess_drawOf ..)
  len := refuseAccess_lenOf ..
  valid := refuseAccess_validOf ..

theorem keepsBuffer_setLen {u w : Window} (h : u ≠ w) (n : Len) (s : State) : KeepsBuffer u s (setLen w n s) where
  bytes := (setLen_bufByte s w u · n)
  len := by simp [h]
  valid := by simp [h]

theorem keepsBuffer_storeDigest (u : Window) (d : Digest) (s : State) : KeepsBuffer u s (storeDigest d s) where
  bytes := (storeDigest_bufByte s u · d)
  len := storeDigest_lenOf ..
  valid := storeDigest_validOf ..

theorem keepsBuffer_complete (u : Window) (code : ErrCode) (s : State) : KeepsBuffer u s (complete code s) where
  bytes := (complete_bufByte s u · code)
  len := complete_lenOf ..
  valid := complete_validOf ..

/-- A write of one buffer's length register, refused or not, keeps every other buffer (R34, R39). -/
theorem keepsBuffer_memWrite_lenAddr {u w : Window} (h : u ≠ w) (v : Word) (s : State) :
    KeepsBuffer u s (memWrite (lenAddr w) v s) := by
  rw [memWrite_reg (target_lenAddr _ w), regWrite, writeLen]
  split
  · exact keepsBuffer_refuseAccess u _ s
  · split
    · exact keepsBuffer_refuseAccess u _ s
    · exact keepsBuffer_setLen h _ s

/-- Bytes written inside one window's region leave those of every other window's (R63). -/
theorem writeBuf_bufByte_other {u w : Window} (h : u ≠ w) (s : State) {i j : Nat} {bytes : ByteSeq}
    (hb : i + bytes.length ≤ Window.size) (hj : j < Window.size) :
    (writeBuf w i bytes s).bufByte u j = s.bufByte u j := by
  have hd := window_disjoint h
  exact writeBuf_bufByte_out _ _ _ _ _ _ (by omega)

/-- HASH and ITERHASH write the DIGEST and nothing else before they complete (R122, R143). -/
theorem commandEffect_hash_commands {i : Instr} (he : i ≠ .encrypt) (hd : i ≠ .decrypt) (s : State) :
    ∃ d, commandEffect i s = storeDigest d s := by
  cases i with
  | hash src => exact ⟨_, rfl⟩
  | iterhash src => exact ⟨_, rfl⟩
  | encrypt => exact absurd rfl he
  | decrypt => exact absurd rfl hd

/-- HASH and ITERHASH keep every buffer, however they end (R39, R206). -/
theorem keepsBuffer_exec_hash_commands (u : Window) {i : Instr} {s t : State} (he : i ≠ .encrypt) (hd : i ≠ .decrypt)
    (h : exec i s = .next t) : KeepsBuffer u s t := by
  obtain ⟨_, hx⟩ | ⟨_, hx⟩ := exec_cases i s
  · obtain ⟨d, heffect⟩ := commandEffect_hash_commands he hd s
    rw [hx, heffect] at h
    cases h
    exact (keepsBuffer_storeDigest u d s).trans (keepsBuffer_complete u _ _)
  · rw [hx] at h
    cases h
    exact keepsBuffer_complete u _ s

/-- Settles O35: a buffer word is written inside its own window or refused; the other two parts keep the whole buffer. -/
theorem sessionsIndependent : Obligations.SessionsIndependent := by
  intro s v w u hwf hu
  have hlen := keepsBuffer_memWrite_lenAddr hu v s
  refine ⟨fun a k ha hk => ?_, ⟨fun i _ => hlen.bytes i, hlen.len, hlen.valid⟩, fun i t he hd hx => ?_⟩
  · rw [memWrite_buf (target_window hwf ha hk)]
    split
    · have hkept := keepsBuffer_refuseAccess u .busyWrite s
      exact ⟨fun i _ => hkept.bytes i, hkept.len, hkept.valid⟩
    · have hcap := cap_le hwf w
      refine ⟨fun i hi => writeBuf_bufByte_other hu s ?_ (Nat.lt_of_lt_of_le hi (cap_le hwf u)), by simp, by simp⟩
      rw [le32Bytes_length]
      omega
  · have hkept := keepsBuffer_exec_hash_commands u he hd hx
    exact ⟨hkept.bytes, hkept.len, hkept.valid⟩

end Sys2Proof.Machine
end

section
/-! PROOFS. The statements of the memory family (20_memory.md): the accesses to read-only registers and the read of CMD. -/

namespace Sys2Proof.Machine

open Sys2Proof

/-! ### Read-only registers (R69) -/

/-- R33: CMD has no value to read, in either sequencer state. -/
theorem memRead_cmd (s : State) : memRead 0x00018 s = reply 0 s :=
  memRead_reg (target_cmd _) (by simp)

/-- Settles O24: each of the addresses selects a register whose every write is refused, DIGESTk by its place in R22. -/
theorem readOnlyWritesRefused : Obligations.ReadOnlyWritesRefused := by
  refine ⟨fun s a v ha => ?_, memRead_cmd⟩
  obtain rfl | rfl | rfl | rfl | ⟨k, hk⟩ := ha
  · exact memWrite_readOnly (target_id _) (by simp) v
  · exact memWrite_readOnly (target_cfg _) (by simp) v
  · exact memWrite_readOnly (target_keyCap _) (by simp) v
  · exact memWrite_readOnly (target_dataCap _) (by simp) v
  · exact memWrite_readOnly (target_digest _ hk) (by simp) v

end Sys2Proof.Machine
end

section
/-! PROOFS. The statements of the encoding family (30_encoding.md): the legal and the illegal command words, the examples of
R99, and the source selectors. -/

namespace Sys2Proof.Machine

open Sys2Proof

/-! ### Command words and their fields (R90, R94) -/

/-- R90: OP, SRC and RSVD cover the whole word. -/
theorem joinFields_splitWord (w : Word) : joinFields (splitWord w) = w := by
  have upper : w.extractLsb' 10 22 ++ w.extractLsb' 8 2 = w.extractLsb' 8 24 :=
    BitVec.extractLsb'_append_extractLsb'_eq_extractLsb' rfl
  have whole : w.extractLsb' 8 24 ++ w.extractLsb' 0 8 = w.extractLsb' 0 32 :=
    BitVec.extractLsb'_append_extractLsb'_eq_extractLsb' rfl
  exact (congrArg (· ++ _) upper).trans (whole.trans BitVec.extractLsb'_eq_self)

/-- Every command's fields are legal and are those of its word, by the laws of its constructors. -/
theorem legalFields (i : Instr) : Laws.LegalFields.Statement i := by
  cases i with
  | hash src => exact Laws.LegalFields.hash src
  | iterhash src => exact Laws.LegalFields.iterhash src
  | encrypt => exact Laws.LegalFields.encrypt
  | decrypt => exact Laws.LegalFields.decrypt

/-- R92: the selectors number the sources one to one. -/
@[simp] theorem bits_srcOfBits (b : BitVec 2) : (srcOfBits b).bits = b := by
  revert b
  decide

@[simp] theorem srcOfBits_bits (src : Src) : srcOfBits src.bits = src := by
  cases src <;> rfl

/-- The fields of a word that decodes to a command are that command's: a branch of `decode` that answers a command has
checked every field but the selector, which the source carries. -/
theorem splitWord_of_decode {w : Word} {i : Instr} (h : decode w = .command i) : splitWord w = i.fields := by
  generalize hf : splitWord w = f
  obtain ⟨op, src, rsvd⟩ := f
  simp only [decode, hf] at h
  split_ifs at h <;> cases h <;> simp_all [Instr.fields]

/-- A word with a command's fields decodes to that command. -/
theorem decode_of_splitWord {w : Word} {i : Instr} (h : splitWord w = i.fields) : decode w = .command i := by
  rw [decode, h]
  cases i with
  | hash src => exact congrArg (fun src => Decoded.command (.hash src)) (srcOfBits_bits src)
  | iterhash src => exact congrArg (fun src => Decoded.command (.iterhash src)) (srcOfBits_bits src)
  | encrypt => rfl
  | decrypt => rfl

/-- R94: decoding answers a command exactly on that command's word. -/
theorem decode_eq_command_iff {w : Word} {i : Instr} : decode w = .command i ↔ w = encode i := by
  constructor
  · intro h
    rw [encode, ← splitWord_of_decode h, joinFields_splitWord]
  · rintro rfl
    exact decode_of_splitWord (legalFields i).2

/-! ### Legal and illegal words (R93, R95, R96) -/

/-- R96: the table lists every command at its word, and nothing else. -/
theorem mem_legalTable_iff {w : Word} {i : Instr} : (w, i) ∈ legalTable ↔ w = encode i := by
  constructor
  · have table : ∀ p ∈ legalTable, p.1 = encode p.2 := by decide
    exact table (w, i)
  · rintro rfl
    cases i with
    | hash src => cases src <;> decide
    | iterhash src => cases src <;> decide
    | encrypt => decide
    | decrypt => decide

/-- R94: a word is ILLEGAL exactly when it is no command. -/
theorem illegal_iff_no_command {w : Word} : (∃ why, decode w = .illegal why) ↔ ∀ i, decode w ≠ .command i := by
  cases decode w <;> simp

/-- R91, R93: the fields of the commands are the legal ones. -/
theorem wellFormed_iff_fields {f : CmdFields} : f.wellFormed = true ↔ ∃ i : Instr, f = i.fields := by
  constructor
  · obtain ⟨op, src, rsvd⟩ := f
    simp only [CmdFields.wellFormed, CmdFields.rsvdOk, CmdFields.opOk, CmdFields.srcOk, Bool.and_eq_true, beq_iff_eq,
      decide_eq_true_eq]
    rintro ⟨⟨rfl, hlo, hhi⟩, hsrc⟩
    have hop : op = 0x01#8 ∨ op = 0x02#8 ∨ op = 0x03#8 ∨ op = 0x04#8 := by bv_omega
    obtain rfl | rfl | rfl | rfl := hop
    · exact ⟨.hash (srcOfBits src), by simp [Instr.fields]⟩
    · exact ⟨.iterhash (srcOfBits src), by simp [Instr.fields]⟩
    · exact ⟨.encrypt, by simpa [Instr.fields] using hsrc⟩
    · exact ⟨.decrypt, by simpa [Instr.fields] using hsrc⟩
  · rintro ⟨i, rfl⟩
    exact (legalFields i).1

/-- R95: a word is ILLEGAL exactly when its fields fail one of the three checks. -/
theorem illegal_iff_not_wellFormed {w : Word} :
    (∃ why, decode w = .illegal why) ↔ (splitWord w).wellFormed = false := by
  rw [illegal_iff_no_command, ← Bool.not_eq_true, wellFormed_iff_fields, not_exists]
  exact forall_congr' fun i => not_congr ⟨splitWord_of_decode, decode_of_splitWord⟩

/-- R93, R95: how the fields of a word can fail. -/
theorem not_wellFormed_iff {f : CmdFields} :
    f.wellFormed = false ↔
      f.rsvd ≠ 0 ∨ f.op = 0x00#8 ∨ 0x05#8 ≤ f.op ∨ ((f.op = 0x03#8 ∨ f.op = 0x04#8) ∧ f.src ≠ 0) := by
  have hrsvd : f.rsvdOk = false ↔ f.rsvd ≠ 0 := by simp [CmdFields.rsvdOk]
  have hsrc : f.srcOk = false ↔ (f.op = 0x03#8 ∨ f.op = 0x04#8) ∧ f.src ≠ 0 := by
    simp only [CmdFields.srcOk, Bool.or_eq_false_iff, Bool.not_eq_false', Bool.or_eq_true, beq_iff_eq,
      beq_eq_false_iff_ne]
  have hop : f.opOk = false ↔ f.op = 0x00#8 ∨ 0x05#8 ≤ f.op := by
    simp only [CmdFields.opOk, Bool.and_eq_false_iff, decide_eq_false_iff_not]
    bv_omega
  simp only [CmdFields.wellFormed, Bool.and_eq_false_iff, hrsvd, hop, hsrc, or_assoc]

/-- R95: the six words that only their SRC makes ILLEGAL. -/
def srcNotZeroWords : List Word :=
  [0x00000103#32, 0x00000203#32, 0x00000303#32, 0x00000104#32, 0x00000204#32, 0x00000304#32]

theorem mem_srcNotZeroWords_iff {w : Word} :
    w ∈ srcNotZeroWords ↔
      (splitWord w).rsvd = 0 ∧ ((splitWord w).op = 0x03#8 ∨ (splitWord w).op = 0x04#8) ∧ (splitWord w).src ≠ 0 := by
  constructor
  · simp only [srcNotZeroWords, List.mem_cons, List.not_mem_nil, or_false]
    rintro (rfl | rfl | rfl | rfl | rfl | rfl) <;> decide
  · rintro ⟨hrsvd, hop, hsrc⟩
    have word : ∀ src : BitVec 2, src ≠ 0 → ∀ op, op = 0x03#8 ∨ op = 0x04#8 →
        joinFields ⟨op, src, 0⟩ ∈ srcNotZeroWords := by
      rintro src hsrc op (rfl | rfl) <;> revert src <;> decide
    have hw := word _ hsrc _ hop
    rwa [← hrsvd, joinFields_splitWord] at hw

/-- Settles O2: the table lists each command at its own word, and a word decodes to a command exactly when it is that word. -/
theorem legalWordsAreTheTen : Obligations.LegalWordsAreTheTen :=
  ⟨fun _ _ => decode_eq_command_iff.trans mem_legalTable_iff.symm, .unknownOp, rfl⟩

/-- Settles O3: the fields that fail a check are those of the listed words; no command is left for a word outside the table. -/
theorem illegalWordsCharacterised : Obligations.IllegalWordsCharacterised := by
  intro w
  have hchecks := illegal_iff_not_wellFormed.trans (not_wellFormed_iff (f := splitWord w))
  refine ⟨?_, ?_, fun hrsvd => hchecks.2 (.inl hrsvd),
    fun hop hsrc => hchecks.2 (.inr (.inr (.inr ⟨hop, hsrc⟩)))⟩
  · have hsix := mem_srcNotZeroWords_iff (w := w)
    simp only [splitWord, srcNotZeroWords] at hchecks hsix
    rw [hchecks, hsix]
    by_cases hrsvd : w.extractLsb' 10 22 = 0#22 <;> simp [hrsvd]
  · obtain ⟨hlegal, _⟩ := legalWordsAreTheTen
    simp only [illegal_iff_no_command, ne_eq, hlegal]
    exact ⟨fun h p hp hw => h p.2 (hw ▸ hp), fun h i hi => h (w, i) hi rfl⟩

/-! ### Examples and source selectors (R92, R99) -/

/-- Settles O4: the two words are their commands' own, and 0x00000403 has a RSVD bit set. -/
theorem encodingExamples : Obligations.EncodingExamples := by
  obtain ⟨_, _, hrsvd, _⟩ := illegalWordsCharacterised 0x00000403
  exact ⟨rfl, rfl, rfl, decode_eq_command_iff.2 rfl, rfl, decode_eq_command_iff.2 rfl, hrsvd (by decide)⟩

/-- Settles O5: each source's bytes are the session value of its window, whose length is the window's length register. -/
theorem sourceSelectorTable : Obligations.SourceSelectorTable := by
  intro s
  exact ⟨⟨srcOfBits_bits .key, rfl, rfl⟩, ⟨srcOfBits_bits .pt, rfl, rfl⟩, ⟨srcOfBits_bits .ct, rfl, rfl⟩,
    srcOfBits_bits .digest, rfl, rfl⟩

end Sys2Proof.Machine
end

section
/-! PROOFS. The statements of the hash core's family (40_sha256_core.md): the padding and its number of blocks, the message
schedule, and HASH DIGEST repeated. -/

namespace Sys2Proof.Machine

open Sys2Proof

/-! ### Padding and block count (R111, R120) -/

/-- R111: the model's `55 + 63n` counts the zeros as `55 - n` does, over the integers. -/
theorem shaPad_zeros (n : Nat) : ((55 + 63 * n) % 64 : Nat) = (55 - (n : Int)) % 64 := by omega

/-- R120: the padded message is a whole number of blocks, the one that the core processes. -/
theorem shaPad_length_eq_blocks (m : ByteSeq) : (shaPad m).length = 64 * shaBlockCount m.length := by
  rw [shaPad_length, shaBlockCount]
  omega

/-- Settles O37, with the model's own count of zeros. -/
theorem shaPadding : Obligations.ShaPadding := by
  intro m
  have hpad : shaPad m = m ++ [0x80#8] ++ List.replicate ((55 + 63 * m.length) % 64) 0x00#8 ++ be64Bytes (8 * m.length) := by
    rw [shaPad, List.append_assoc m [_], List.singleton_append]
  exact ⟨_, shaPad_zeros m.length, Nat.le_of_lt_succ (Nat.mod_lt _ (by decide)), hpad, shaPad_length m,
    _, shaPad_length_eq_blocks m⟩

/-- Settles O38: the length by blocks, and the quotient at the boundaries (`shaBlockCount` itself is the model's function). -/
theorem shaBlockCountOfPad : Obligations.ShaBlockCount := by
  refine ⟨shaPad_length_eq_blocks, fun _ => rfl, fun n hn => ?_, fun n hlo hhi => ?_, rfl, rfl⟩
  · rw [shaBlockCount]
    omega
  · rw [shaBlockCount]
    omega

/-! ### The message schedule (R112, R116) -/

@[simp] theorem be32Words_length (k : Nat) (m : ByteSeq) : (be32Words k m).length = k := by
  induction k generalizing m with
  | zero => rfl
  | succ k ih => rw [be32Words, List.length_cons, ih]

theorem getD_drop {α : Type} (l : List α) (n j : Nat) (d : α) : (l.drop n).getD j d = l.getD (j + n) d := by
  rw [List.getD_eq_getElem?_getD, List.getElem?_drop, Nat.add_comm, ← List.getD_eq_getElem?_getD]

/-- R112: word `t` of a byte sequence is its bytes `4t` to `4t + 3`. -/
theorem be32Words_getD {k t : Nat} (h : t < k) (m : ByteSeq) :
    (be32Words k m).getD t 0 =
      be32 (m.getD (4 * t) 0) (m.getD (4 * t + 1) 0) (m.getD (4 * t + 2) 0) (m.getD (4 * t + 3) 0) := by
  induction k generalizing m t with
  | zero => exact absurd h (Nat.not_lt_zero t)
  | succ k ih =>
    cases t with
    | zero => rfl
    | succ t =>
      rw [be32Words, List.getD_cons_succ, ih (Nat.lt_of_succ_lt_succ h)]
      simp only [getD_drop, Nat.mul_succ, Nat.add_right_comm _ 4]

/-- R116: the word of the schedule that follows the words `ws`, the newest first. -/
def nextWord (ws : List Word) : Word :=
  smallSigma1 (ws.getD 1 0) + ws.getD 6 0 + smallSigma0 (ws.getD 14 0) + ws.getD 15 0

/-- The last of `k + 1` further words stands before the schedule with `k` of them. -/
theorem extendSchedule_succ (k : Nat) (ws : List Word) :
    extendSchedule (k + 1) ws = nextWord (extendSchedule k ws) :: extendSchedule k ws := by
  induction k generalizing ws with
  | zero => rfl
  | succ k ih => exact ih (nextWord ws :: ws)

@[simp] theorem extendSchedule_length (k : Nat) (ws : List Word) : (extendSchedule k ws).length = k + ws.length := by
  induction k with
  | zero => exact (Nat.zero_add _).symm
  | succ k ih =>
    rw [extendSchedule_succ, List.length_cons, ih]
    omega

/-- The words that were extended stand behind the `k` further ones. -/
theorem extendSchedule_getD_old (k : Nat) (ws : List Word) (j : Nat) :
    (extendSchedule k ws).getD (k + j) 0 = ws.getD j 0 := by
  induction k with
  | zero => rw [extendSchedule, Nat.zero_add]
  | succ k ih => rw [extendSchedule_succ, Nat.succ_add, List.getD_cons_succ, ih]

/-- Each of the `k` further words follows the words behind it. -/
theorem extendSchedule_getD_new {k i : Nat} (h : i < k) (ws : List Word) :
    (extendSchedule k ws).getD i 0 = nextWord ((extendSchedule k ws).drop (i + 1)) := by
  induction k generalizing i with
  | zero => exact absurd h (Nat.not_lt_zero i)
  | succ k ih =>
    rw [extendSchedule_succ, List.drop_succ_cons]
    cases i with
    | zero => rfl
    | succ i => rw [List.getD_cons_succ, ih (Nat.lt_of_succ_lt_succ h)]

/-- The words of a block's schedule from the newest, `W_63`, to the oldest, `W_0`. -/
def newestFirst (block : ByteSeq) : List Word := extendSchedule 48 (be32Words 16 block).reverse

theorem newestFirst_length (block : ByteSeq) : (newestFirst block).length = 64 := by
  rw [newestFirst, extendSchedule_length, List.length_reverse, be32Words_length]

theorem shaSchedule_length (block : ByteSeq) : (shaSchedule block).length = 64 := by
  rw [shaSchedule, List.length_reverse, ← newestFirst, newestFirst_length]

/-- `W_t` stands at place `63 - t` from the newest word. -/
theorem shaSchedule_getD {t : Nat} (h : t < 64) (block : ByteSeq) :
    (shaSchedule block).getD t 0 = (newestFirst block).getD (63 - t) 0 := by
  have hlen := newestFirst_length block
  rw [shaSchedule, ← newestFirst, List.getD_reverse t (by omega), hlen]

/-- R116: the first 16 words of the schedule are those of the block. -/
theorem shaSchedule_getD_block {t : Nat} (h : t < 16) (block : ByteSeq) :
    (shaSchedule block).getD t 0 = (be32Words 16 block).getD t 0 := by
  rw [shaSchedule_getD (by omega), newestFirst, show 63 - t = 48 + (15 - t) by omega, extendSchedule_getD_old,
    List.getD_reverse _ (by rw [be32Words_length]; omega), be32Words_length]
  congr 1
  omega

/-- R116: the later words follow those before them. -/
theorem shaSchedule_getD_next {t : Nat} (hlo : 16 ≤ t) (hhi : t < 64) (block : ByteSeq) :
    (shaSchedule block).getD t 0 =
      smallSigma1 ((shaSchedule block).getD (t - 2) 0) + (shaSchedule block).getD (t - 7) 0 +
        smallSigma0 ((shaSchedule block).getD (t - 15) 0) + (shaSchedule block).getD (t - 16) 0 := by
  have behind : ∀ j ≤ 15, ((newestFirst block).drop (63 - t + 1)).getD j 0 = (shaSchedule block).getD (t - (j + 1)) 0 :=
    fun j hj => by
      rw [shaSchedule_getD (by omega), getD_drop]
      congr 1
      omega
  calc (shaSchedule block).getD t 0
      = nextWord ((newestFirst block).drop (63 - t + 1)) :=
        (shaSchedule_getD hhi block).trans (extendSchedule_getD_new (by omega) _)
    _ = _ := by
        rw [nextWord, behind 1 (by decide), behind 6 (by decide), behind 14 (by decide), behind 15 (by decide)]

/-- Settles O39: a word of the block by its four bytes, a later one by the word that follows those before it. -/
theorem shaScheduleRecurrence : Obligations.ShaScheduleRecurrence := fun block =>
  ⟨shaSchedule_length block,
    fun _ ht => (shaSchedule_getD_block ht block).trans (be32Words_getD ht block),
    fun _ hlo hhi => shaSchedule_getD_next hlo hhi block⟩

/-! ### HASH and its repetition (R122, R123, R140) -/

/-- HASH with its source set (R122). -/
theorem exec_hash_ok {src : Src} {s : State} (h : s.srcValid src = true) :
    exec (.hash src) s = .next (complete .ok (storeDigest (sha256 (s.srcBytes src)) s)) := by
  show execHash src s = _
  rw [execHash, if_pos h]

/-- A command that answers a next state hands it to the commands after it. -/
theorem execAll_cons {i : Instr} {s t : State} (h : exec i s = .next t) (rest : List Instr) :
    execAll (i :: rest) s = execAll rest t := by
  rw [execAll, h]

/-- R140: the innermost application of the hash can be the first or the last one counted. -/
theorem hashPower_sha256 (k : Nat) (d : Digest) : hashPower k (sha256 d.toList) = hashPower (k + 1) d := by
  induction k with
  | zero => rfl
  | succ k ih => rw [hashPower, ih, ← hashPower]

/-- R140: the model's loop is the power of the hash. -/
theorem rehash_eq_hashPower (k : Nat) (d : Digest) : rehash k d = hashPower k d := by
  induction k generalizing d with
  | zero => rfl
  | succ k ih => rw [rehash, ih, hashPower_sha256]

/-- R123: `k` times HASH DIGEST is `k` further applications of the hash; each leaves DIGEST_VALID set for the next. -/
theorem execAll_hash_digest (k : Nat) {s : State} (h : s.status.digestValid = true) :
    ∃ t, execAll (List.replicate k (.hash .digest)) s = .next t ∧ t.digest = rehash k s.digest := by
  induction k generalizing s with
  | zero => exact ⟨s, rfl, rfl⟩
  | succ k ih =>
    rw [List.replicate_succ, execAll_cons (exec_hash_ok (src := .digest) h)]
    exact ih rfl

/-- Settles O42: HASH KEY leaves one application of the hash and DIGEST_VALID, and the repetition goes on from there. -/
theorem hashDigestRepeats : Obligations.HashDigestRepeats := by
  refine ⟨fun s hd => ⟨_, exec_hash_ok (src := .digest) hd, rfl⟩, fun s k hk => ?_⟩
  rw [execAll_cons (exec_hash_ok (src := .key) hk)]
  obtain ⟨t, hrun, ht⟩ := execAll_hash_digest k (s := complete .ok (storeDigest (sha256 (s.srcBytes .key)) s)) rfl
  refine ⟨t, hrun, ht.trans (rehash_eq_hashPower k _), fun hcount => ?_⟩
  rw [ht, iteratedHash, ← hcount]
  rfl

end Sys2Proof.Machine
end

section
/-! PROOFS. The number of hash applications of `iteratedHash` (41_iterated_hash.md R140, R141). -/

namespace Sys2Proof.Machine

open Sys2Proof

/-- R140: `k + 1` applications are the one to the seed and `k` further ones. -/
theorem iteratedHash_succ (k : Nat) (seed : ByteSeq) : iteratedHash (k + 1) seed = hashPower k (sha256 seed) :=
  rehash_eq_hashPower k (sha256 seed)

/-- Settles O41: an ITER_COUNT of at least 1 is a successor; the production instance's is that of 241. -/
theorem iteratedHashIsHashPower : Obligations.IteratedHashIsHashPower := by
  refine ⟨fun n seed hn => ?_, iteratedHash_succ 0, iteratedHash_succ 1, iteratedHash_succ 241, rfl⟩
  obtain ⟨k, rfl⟩ := Nat.exists_eq_add_of_le' hn
  exact iteratedHash_succ k seed

end Sys2Proof.Machine
end

section
/-! PROOFS. The statements of the keystream expander's family (42_keystream_expander.md): the closed form of the keystream with
the length and the prefix property that follow from it, and the chain of its blocks as ENCRYPT and ITERHASH show it. -/

namespace Sys2Proof.Machine

open Sys2Proof

/-! ### The closed form and what follows from it (R160 to R163) -/

/-- Byte `p` of the unbounded keystream, as R161 gives it. -/
def keystreamByte (iters : Nat) (key : ByteSeq) (p : Nat) : Byte :=
  (keystreamBlock iters key (p / 32)).toList.getD (p % 32) 0

/-- Byte `j` of block `k` stands at position `32k + j`. -/
theorem keystreamByte_in_block (iters : Nat) (key : ByteSeq) (k : Nat) {j : Nat} (hj : j < 32) :
    keystreamByte iters key (32 * k + j) = (keystreamBlock iters key k).toList.getD j 0 := by
  rw [keystreamByte, show (32 * k + j) / 32 = k by omega, show (32 * k + j) % 32 = j by omega]

/-- From byte `j` of block `k` on, the loop of R160 gives the bytes from position `32k + j` on. -/
theorem keystreamFrom_block (iters : Nat) (key : ByteSeq) (n k : Nat) {j : Nat} (hj : j < 32) :
    keystreamFrom iters n (keystreamBlock iters key k) j = (List.range' (32 * k + j) n).map (keystreamByte iters key) := by
  induction n generalizing k j with
  | zero => rfl
  | succ n ih =>
    rw [keystreamFrom_within _ _ _ _ hj, List.range'_succ, List.map_cons, keystreamByte_in_block _ _ _ hj]
    congr 1
    obtain hmore | hlast : j + 1 < 32 ∨ j + 1 = Config.blockBytes := Nat.lt_or_eq_of_le hj
    · exact ih k hmore
    · rw [hlast, keystreamFrom_next, Nat.add_assoc (32 * k) j 1, hlast]
      exact ih (k + 1) (by decide)

/-- R161 for the whole sequence: the keystream of length `n` is the first `n` bytes of the unbounded one. -/
theorem deriveKeystream_eq_map (iters : Nat) (key : ByteSeq) (n : Nat) :
    deriveKeystream iters key n = (List.range n).map (keystreamByte iters key) := by
  rw [List.range_eq_range']
  exact keystreamFrom_block iters key n 0 (by decide)

theorem deriveKeystream_getElem? (iters : Nat) (key : ByteSeq) {n i : Nat} (hi : i < n) :
    (deriveKeystream iters key n)[i]? = some (keystreamByte iters key i) := by
  rw [deriveKeystream_eq_map, List.getElem?_map, List.getElem?_range hi, Option.map_some]

/-- Settles O43: the loop's position in the current block is the quotient and the remainder of the byte's index. -/
theorem keystreamClosedForm : Obligations.KeystreamClosedForm :=
  fun iters key _ _ hi => deriveKeystream_getElem? iters key hi

/-- Settles O44: the loop makes one byte a turn, and the last byte is the one of index `L - 1` in the closed form. -/
theorem keystreamLength : Obligations.KeystreamLength := by
  refine fun iters key n => ⟨deriveKeystream_length iters key n, rfl, fun hn => ?_⟩
  rw [List.getLast?_eq_getElem?, deriveKeystream_length]
  exact deriveKeystream_getElem? iters key (Nat.sub_lt hn Nat.one_pos)

/-- Settles O45: by the closed form a byte does not depend on the length asked for. -/
theorem keystreamPrefix : Obligations.KeystreamPrefix := by
  intro iters key m n hmn
  rw [deriveKeystream_eq_map, deriveKeystream_eq_map, ← List.map_take, List.take_range, Nat.min_eq_left hmn]

/-! ### The chain of blocks, and the block's commands that show it (R164) -/

/-- The 32 bytes from position `32k` on are block `k`. -/
theorem map_keystreamByte_block (iters : Nat) (key : ByteSeq) (k : Nat) :
    (List.range' (32 * k) 32).map (keystreamByte iters key) = (keystreamBlock iters key k).toList := by
  refine List.ext_getElem (by simp) fun j hmap hblock => ?_
  have hj : j < 32 := by simpa using hmap
  rw [List.getElem_map, List.getElem_range', Nat.one_mul, keystreamByte_in_block _ _ _ hj,
    List.getD_eq_getElem _ _ hblock]

/-- A keystream of 64 bytes is its first two blocks. -/
theorem deriveKeystream_64 (iters : Nat) (key : ByteSeq) :
    deriveKeystream iters key 64 = (keystreamBlock iters key 0).toList ++ (keystreamBlock iters key 1).toList := by
  rw [deriveKeystream_eq_map, List.range_eq_range', ← map_keystreamByte_block, ← map_keystreamByte_block, ← List.map_append]
  rfl

theorem deriveKeystream_64_take (iters : Nat) (key : ByteSeq) :
    (deriveKeystream iters key 64).take 32 = (iteratedHash iters key).toList := by
  rw [deriveKeystream_64, List.take_left' (Vector.length_toList ..), keystreamBlock]

theorem deriveKeystream_64_drop (iters : Nat) (key : ByteSeq) :
    (deriveKeystream iters key 64).drop 32 = (iteratedHash iters (iteratedHash iters key).toList).toList := by
  rw [deriveKeystream_64, List.drop_left' (Vector.length_toList ..), keystreamBlock, keystreamBlock]

/-- Exclusive-or with zero bytes changes nothing. -/
theorem xorBytes_zeros (k : ByteSeq) : xorBytes (List.replicate k.length 0) k = k := by
  induction k with
  | nil => rfl
  | cons b k ih => exact congrArg₂ List.cons (BitVec.zero_xor ..) ih

/-- R184: the transform of zero bytes is the keystream. -/
theorem transform_zeros (iters : Nat) (key : ByteSeq) (n : Nat) :
    transform iters key (List.replicate n 0) = deriveKeystream iters key n := by
  rw [transform, List.length_replicate]
  simpa using xorBytes_zeros (deriveKeystream iters key n)

/-- The session value of a buffer whose bytes below its length are 0. -/
theorem session_eq_zeros {s : State} {w : Window} (h : ∀ i < (s.lenOf w).toNat, s.bufByte w i = 0) :
    s.session w = List.replicate (s.lenOf w).toNat 0 := by
  refine List.eq_replicate_iff.2 ⟨session_length s w, fun b hb => ?_⟩
  obtain ⟨i, hi, rfl⟩ := List.mem_map.1 hb
  exact h i (List.mem_range.1 hi)

/-- R183: ENCRYPT leaves the Key. -/
theorem commandEffect_encrypt_session_key {s : State} (hkey : (s.lenOf .key).toNat ≤ Window.size)
    (hpt : (s.lenOf .pt).toNat ≤ Window.size) : (commandEffect .encrypt s).session .key = s.session .key :=
  storeSession_session_other s .ct .key s.ptLen _ (by decide) (by rwa [transform_length, session_length]) hkey

/-- R167, R180: the Ciphertext that ENCRYPT leaves has one byte for each of the Plaintext. -/
theorem commandEffect_encrypt_bufBytes_ct (s : State) :
    (commandEffect .encrypt s).bufBytes .ct (s.lenOf .pt).toNat =
      transform s.cfg.iterCount (s.session .key) (s.session .pt) :=
  storeSession_session s .ct s.ptLen _ (by rw [transform_length, session_length]; rfl)

/-- ENCRYPT of `n` zero bytes exposes the keystream of that length in the ciphertext buffer and leaves the key (R183, R184). -/
theorem exec_encrypt_zeros {s : State} {n : Nat} (hk : s.status.keyValid = true) (hp : s.status.ptValid = true)
    (hlen : (s.lenOf .pt).toNat = n) (hn : n ≤ Window.size) (hzero : ∀ i < n, s.bufByte .pt i = 0)
    (hkey : (s.lenOf .key).toNat ≤ Window.size) :
    ∃ t, exec .encrypt s = .next t ∧ t.cfg = s.cfg ∧ t.srcValid .key = true ∧ t.session .key = s.session .key ∧
      t.bufBytes .ct n = deriveKeystream s.cfg.iterCount (s.session .key) n := by
  subst hlen
  refine ⟨complete .ok (commandEffect .encrypt s), exec_ok (by simp [resultCode, usesKey, dataSet, hk, hp]),
    storeSession_cfg .., hk, ?_, ?_⟩
  · rw [complete_session, commandEffect_encrypt_session_key hkey hn]
  · rw [bufBytes_congr .ct (complete_mem ..) (complete_drawOf ..), commandEffect_encrypt_bufBytes_ct,
      session_eq_zeros hzero, transform_zeros]

/-- ITERHASH with its source set leaves the source's iterated hash in DIGEST, set (R143). -/
theorem exec_iterhash_ok {src : Src} {s : State} (h : s.srcValid src = true) :
    ∃ t, exec (.iterhash src) s = .next t ∧ t.cfg = s.cfg ∧ t.srcValid .digest = true ∧
      t.digest = iteratedHash s.cfg.iterCount (s.srcBytes src) := by
  refine ⟨complete .ok (storeDigest (iteratedHash s.cfg.iterCount (s.srcBytes src)) s), ?_, rfl, rfl, rfl⟩
  show execIterhash src s = _
  rw [execIterhash, if_pos h]

/-- Settles O48: ENCRYPT of zero bytes writes the first two blocks of the keystream and leaves the key, from which the two
ITERHASH commands compute these blocks again, one from the other. -/
theorem keystreamChain : Obligations.KeystreamChain := by
  refine ⟨fun iters key => ⟨deriveKeystream_64_take iters key, ?_⟩, fun s hk hp hlen hzero hkey => ?_⟩
  · rw [deriveKeystream_64_take, deriveKeystream_64_drop]
  · have hptLen : (s.lenOf .pt).toNat = 64 := congrArg BitVec.toNat hlen
    obtain ⟨t, hencrypt, htcfg, htkey, htsession, hct⟩ := exec_encrypt_zeros hk hp hptLen (by decide) hzero hkey
    obtain ⟨u, hiterKey, hucfg, hudigest, hu⟩ := exec_iterhash_ok (src := .key) htkey
    obtain ⟨v, hiterDigest, -, -, hv⟩ := exec_iterhash_ok (src := .digest) hudigest
    have hfirst : u.digest = iteratedHash s.cfg.iterCount (s.session .key) := by
      rw [hu, htcfg, State.srcBytes, htsession]
    have hsecond : v.digest = iteratedHash s.cfg.iterCount u.digest.toList := by
      rw [hv, hucfg, htcfg, State.srcBytes]
    refine ⟨t, u, v, hencrypt, hiterKey, hiterDigest, ?_, ?_⟩
    · rw [hct, deriveKeystream_64_take, hfirst]
    · rw [hct, deriveKeystream_64_drop, hsecond, hfirst]

end Sys2Proof.Machine
end

section
/-! PROOFS. The statements of the transform's family (43_xor_transform.md): the byte-serial transform, and the round trips of
ENCRYPT and DECRYPT. Both commands are one operation on two buffers, `Transforms`, proved once for both directions. -/

namespace Sys2Proof.Machine

open Sys2Proof

/-! ### The transform of byte sequences (R184, R185) -/

theorem xorBytes_getElem? (a k : ByteSeq) (i : Nat) :
    (xorBytes a k)[i]? = Option.map₂ (· ^^^ ·) a[i]? k[i]? := by
  rw [xorBytes, List.getElem?_zipWith]
  cases a[i]? <;> cases k[i]? <;> rfl

/-- Settles O47: byte `i` of the output is one operation on byte `i` of each operand. -/
theorem transformIsByteSerial : Obligations.TransformIsByteSerial := by
  refine fun a b k l i ha hk => ⟨?_, fun hab hkl => ?_⟩
  · rw [xorBytes_getElem?, List.getElem?_eq_getElem ha, List.getElem?_eq_getElem hk, Option.map₂_some_some,
      List.getD_eq_getElem _ _ ha, List.getD_eq_getElem _ _ hk]
  · rw [xorBytes_getElem?, xorBytes_getElem?, hab, hkl]

/-- R184: with the same key the transform undoes itself, its output being as long as its input. -/
theorem transform_transform (iters : Nat) (key data : ByteSeq) :
    transform iters key (transform iters key data) = data := by
  rw [transform, transform_length, transform, xorBytes_cancel _ _ (by simp)]

/-! ### A transform from one buffer into another (R180, R181, R183) -/

/-- Every session value lies inside its window's region. -/
def LengthsFit (s : State) : Prop := ∀ w : Window, (s.lenOf w).toNat ≤ Window.size

theorem BlockInv.lengthsFit {s : State} (h : BlockInv s) : LengthsFit s :=
  fun w => (h.len_fits w).trans (cap_le h.cfg_ok w)

/-- From `s` to `t` the transform of `inp`'s session value goes to `out`; the key and the input stay as they are. -/
structure Transforms (inp out : Window) (s t : State) : Prop where
  cfg : t.cfg = s.cfg
  key : t.session .key = s.session .key
  keyValid : t.validOf .key = s.validOf .key
  input : t.session inp = s.session inp
  inputValid : t.validOf inp = s.validOf inp
  output : t.session out = transform s.cfg.iterCount (s.session .key) (s.session inp)
  outputLen : t.lenOf out = s.lenOf inp
  outputValid : t.validOf out = true
  fits : LengthsFit t

/-- What a successful ENCRYPT or DECRYPT does, for any two buffers of which the output is neither the input nor the key. -/
theorem transforms_storeSession {inp out : Window} {s : State} (hin : inp ≠ out) (hkey : .key ≠ out) (hfit : LengthsFit s) :
    Transforms inp out s (complete .ok (storeSession out (s.lenOf inp)
      (transform s.cfg.iterCount (s.session .key) (s.session inp)) s)) := by
  have hlen : (transform s.cfg.iterCount (s.session .key) (s.session inp)).length = (s.lenOf inp).toNat := by
    rw [transform_length, session_length]
  have hsize := hlen.trans_le (hfit inp)
  exact {
    cfg := by simp
    key := by rw [complete_session, storeSession_session_other _ _ _ _ _ hkey hsize (hfit .key)]
    keyValid := by simp [hkey]
    input := by rw [complete_session, storeSession_session_other _ _ _ _ _ hin hsize (hfit inp)]
    inputValid := by simp [hin]
    output := by rw [complete_session, storeSession_session _ _ _ _ hlen]
    outputLen := by simp
    outputValid := by simp
    fits := fun w => by
      rw [complete_lenOf, storeSession_lenOf]
      split
      · exact hfit inp
      · exact hfit w }

/-- ENCRYPT with its sources set completes and is the transform of the Plaintext into the Ciphertext (R180). -/
theorem exec_encrypt_transforms {s : State} (hk : s.validOf .key = true) (hp : s.validOf .pt = true) (hfit : LengthsFit s) :
    ∃ t, exec .encrypt s = .next t ∧ Transforms .pt .ct s t := by
  have hok : resultCode s .encrypt = .ok := by
    simp only [State.validOf] at hk hp
    simp [resultCode, usesKey, dataSet, hk, hp]
  exact ⟨_, exec_ok hok, transforms_storeSession (by decide) (by decide) hfit⟩

/-- DECRYPT with its sources set completes and is the transform of the Ciphertext into the Plaintext (R181). -/
theorem exec_decrypt_transforms {s : State} (hk : s.validOf .key = true) (hc : s.validOf .ct = true) (hfit : LengthsFit s) :
    ∃ t, exec .decrypt s = .next t ∧ Transforms .ct .pt s t := by
  have hok : resultCode s .decrypt = .ok := by
    simp only [State.validOf] at hk hc
    simp [resultCode, usesKey, dataSet, hk, hc]
  exact ⟨_, exec_ok hok, transforms_storeSession (by decide) (by decide) hfit⟩

/-! ### Two transforms one after another (R184) -/

/-- There and back again: the first input buffer has its session value again. -/
theorem Transforms.roundTrip {a b : Window} {s t u : State} (h : Transforms a b s t) (h' : Transforms b a t u) :
    u.session a = s.session a := by
  rw [h'.output, h.cfg, h.key, h.output, transform_transform]

theorem Transforms.roundTrip_len {a b : Window} {s t u : State} (h : Transforms a b s t) (h' : Transforms b a t u) :
    u.lenOf a = s.lenOf a :=
  h'.outputLen.trans h.outputLen

/-- The same transform again gives the same output. -/
theorem Transforms.again {a b : Window} {s t v : State} (h : Transforms a b s t) (h' : Transforms a b t v) :
    v.session b = t.session b := by
  rw [h'.output, h.cfg, h.key, h.input, h.output]

/-- The transform of zero bytes leaves the keystream in the output buffer. -/
theorem Transforms.zeros {a b : Window} {s t : State} (h : Transforms a b s t)
    (hzero : ∀ i < (s.lenOf a).toNat, s.bufByte a i = 0) :
    t.bufBytes b (s.lenOf a).toNat = deriveKeystream s.cfg.iterCount (s.session .key) (s.lenOf a).toNat := by
  have houtput := h.output
  rwa [State.session, h.outputLen, session_eq_zeros hzero, transform_zeros] at houtput

/-- Settles O49: after the first transform the key, its input and its output are set, so either command can follow. -/
theorem transformRoundTrip : Obligations.TransformRoundTrip := by
  refine fun s hinv hk => ⟨fun hp => ?_, fun hc => ?_⟩
  · obtain ⟨t, hencrypt, ht⟩ := exec_encrypt_transforms hk hp hinv.lengthsFit
    have htkey := ht.keyValid.trans hk
    obtain ⟨u, hdecrypt, hu⟩ := exec_decrypt_transforms htkey ht.outputValid ht.fits
    obtain ⟨v, hagain, hv⟩ := exec_encrypt_transforms htkey (ht.inputValid.trans hp) ht.fits
    exact ⟨t, u, v, hencrypt, hdecrypt, hagain, ht.roundTrip hu, ht.roundTrip_len hu, ht.again hv, ht.outputLen, ht.zeros⟩
  · obtain ⟨t, hdecrypt, ht⟩ := exec_decrypt_transforms hk hc hinv.lengthsFit
    obtain ⟨u, hencrypt, hu⟩ := exec_encrypt_transforms (ht.keyValid.trans hk) ht.outputValid ht.fits
    exact ⟨t, u, hdecrypt, hencrypt, ht.roundTrip hu, ht.roundTrip_len hu, ht.outputLen⟩

end Sys2Proof.Machine
end

section
/-! PROOFS. The statements of the command sequencer's family (44_command_sequencer.md): a write of CMD, accepted while IDLE and
refused while BUSY. -/

namespace Sys2Proof.Machine

open Sys2Proof

/-! ### Writes of CMD (R200, R201) -/

/-- R200: while IDLE every word is accepted. -/
theorem memWrite_cmd_idle {s : State} (h : s.seq = .idle) (w : Word) : memWrite 0x00018 w s = accept w s := by
  rw [memWrite_reg (target_cmd _), regWrite, writeCmd, idle_not_busy h, if_neg Bool.false_ne_true]

/-- R201: while BUSY every word is refused. -/
theorem memWrite_cmd_busy {s : State} (h : s.seq = .busy) (w : Word) : memWrite 0x00018 w s = refusedWrite s := by
  rw [memWrite_reg (target_cmd _), regWrite, writeCmd, if_pos (busy_of_seq h)]
  rfl

/-- R42, R200: acceptance clears DONE, so IRQ is 0 whatever `CTRL.IE` is. -/
@[simp] theorem accept_irq (w : Word) (s : State) : (accept w s).irq = false := Bool.and_false _

/-- Settles O18: the write is the acceptance of its word, whose IRQ and BUSY follow from the STATUS and sequencer it leaves. -/
theorem commandAccepted : Obligations.CommandAccepted := by
  intro s w hidle
  rw [memWrite_cmd_idle hidle]
  exact ⟨rfl, accept_irq w s, busy_of_seq (accept_seq s w)⟩

/-- Settles O19: it is the refusal of a CMD write while BUSY. -/
theorem secondCommandRefused : Obligations.SecondCommandRefused := fun _ w hbusy => memWrite_cmd_busy hbusy w

end Sys2Proof.Machine
end

section
/-! PROOFS. The statements of the host boundary's family (45_host_boundary.md): the hex codec. -/

namespace Sys2Proof.Machine

open Sys2Proof

/-! ### One digit (R233, R234) -/

/-- R234: `VAL` undoes `DIGIT`. -/
@[simp] theorem hexValue_hexDigit : ∀ v : BitVec 4, hexValue (hexDigit v) = some v := by decide

/-- R233: every digit that `DIGIT` gives is a decimal digit or a lowercase letter. -/
theorem hexDigit_lowercase : ∀ v : BitVec 4,
    ('0' ≤ hexDigit v ∧ hexDigit v ≤ '9') ∨ ('a' ≤ hexDigit v ∧ hexDigit v ≤ 'f') := by decide

/-- A byte is its high digit followed by its low digit. -/
theorem highNibble_append_lowNibble (b : Byte) : b.extractLsb' 4 4 ++ b.extractLsb' 0 4 = b :=
  (BitVec.extractLsb'_append_extractLsb'_eq_extractLsb' rfl).trans BitVec.extractLsb'_eq_self

/-! ### A byte sequence (R233, R236) -/

@[simp] theorem hexEncode_nil : hexEncode [] = [] := rfl

@[simp] theorem hexEncode_cons (b : Byte) (bs : ByteSeq) :
    hexEncode (b :: bs) = hexDigit (b.extractLsb' 4 4) :: hexDigit (b.extractLsb' 0 4) :: hexEncode bs := rfl

theorem hexEncode_length (bs : ByteSeq) : (hexEncode bs).length = 2 * bs.length := by
  induction bs with
  | nil => rfl
  | cons b bs ih => simp only [hexEncode_cons, List.length_cons, ih]; omega

theorem hexEncode_lowercase {bs : ByteSeq} {c : Char} (hc : c ∈ hexEncode bs) :
    ('0' ≤ c ∧ c ≤ '9') ∨ ('a' ≤ c ∧ c ≤ 'f') := by
  obtain ⟨b, -, hdigit⟩ := List.mem_flatMap.mp hc
  obtain rfl | rfl := List.mem_pair.mp hdigit
  · exact hexDigit_lowercase _
  · exact hexDigit_lowercase _

/-- The pairs of digits of an encoding are the bytes encoded. -/
@[simp] theorem hexPairs_hexEncode (bs : ByteSeq) : hexPairs (hexEncode bs) = some bs := by
  induction bs with
  | nil => rfl
  | cons b bs ih => simp [hexPairs, ih, highNibble_append_lowNibble]

/-- An encoding has even length, so `hexDecode` reads its pairs. -/
theorem hexDecode_hexEncode (bs : ByteSeq) : hexDecode (hexEncode bs) = .bytes bs := by
  have heven : (hexEncode bs).length % 2 ≠ 1 := by rw [hexEncode_length]; omega
  rw [hexDecode, if_neg heven, hexPairs_hexEncode]

/-- Settles O58: the round trip, the length and the alphabet, each from its lemma above. -/
theorem hexRoundTrip : Obligations.HexRoundTrip :=
  fun b => ⟨hexDecode_hexEncode b, hexEncode_length b, fun _ => hexEncode_lowercase⟩

end Sys2Proof.Machine
end

section
/-! PROOFS. The statements of the exceptions family (60_exceptions.md): the order in which a command's errors are checked. -/

namespace Sys2Proof.Machine

open Sys2Proof

/-! ### The result code of a command (R205, R257) -/

/-- R257: the key is checked first. -/
theorem resultCode_keyNotSet {i : Instr} {s : State} (huses : usesKey i = true) (hkey : s.status.keyValid = false) :
    resultCode s i = .keyNotSet := by
  rw [resultCode, huses, hkey]
  rfl

/-- R257: once the key's check has passed, the result is that of the data source. -/
theorem resultCode_of_key {i : Instr} {s : State} (hkey : usesKey i = true → s.status.keyValid = true) :
    resultCode s i = if dataSet s i = true then .ok else .srcNotSet := by
  have hpass : (usesKey i && !s.status.keyValid) = false := by
    cases huses : usesKey i with
    | false => rfl
    | true => rw [hkey huses]; rfl
  cases hdata : dataSet s i <;> simp [resultCode, hpass, hdata]

/-! ### The result of the engine's turn (R202, R206, R251) -/

/-- R202, R206: a command ends with its result code in ERRCODE, whether or not it has an effect. -/
theorem exec_errCode {i : Instr} {s t : State} (h : exec i s = .next t) : t.status.errCode = resultCode s i := by
  obtain ⟨hok, hx⟩ | ⟨-, hx⟩ := exec_cases i s
  · rw [hx] at h
    cases h
    exact hok.symm
  · rw [hx] at h
    cases h
    rfl

/-- R204: while BUSY a legal CUR_CMD gives ERRCODE its command's result code. -/
theorem engineTurn_command_errCode {i : Instr} {s t : State} (hbusy : s.seq = .busy) (hcmd : decode s.curCmd = .command i)
    (h : engineTurn s = .next t) : t.status.errCode = resultCode s i := by
  obtain ⟨hidle, -⟩ | ⟨-, j, hj, hx⟩ | ⟨-, _, hill, -⟩ := engineTurn_cases s
  · simp [hbusy] at hidle
  · obtain rfl : i = j := by simpa [hcmd] using hj
    exact exec_errCode (hx ▸ h)
  · simp [hcmd] at hill

/-- R251: while BUSY an illegal CUR_CMD gives ERRCODE the code ILLEGAL_CMD, before any operand is looked at. -/
theorem engineTurn_illegal_errCode {why : Illegal} {s t : State} (hbusy : s.seq = .busy)
    (hill : decode s.curCmd = .illegal why) (h : engineTurn s = .next t) : t.status.errCode = .illegalCmd := by
  obtain ⟨hidle, -⟩ | ⟨-, _, hcmd, -⟩ | ⟨-, _, -, hx⟩ := engineTurn_cases s
  · simp [hbusy] at hidle
  · simp [hill] at hcmd
  · rw [hx] at h
    cases h
    rfl

/-- Settles O15: the engine's turn reports the result code, which each clause's premises on the key and the source fix. -/
theorem errorPrecedence : Obligations.ErrorPrecedence := by
  intro s t hbusy hturn
  refine ⟨fun _ hill => engineTurn_illegal_errCode hbusy hill hturn, fun i hcmd => ?_, fun hcmd hkey _ => ?_⟩
  · rw [engineTurn_command_errCode hbusy hcmd hturn]
    exact ⟨resultCode_keyNotSet, fun hkey hdata => by simp [resultCode_of_key hkey, hdata],
      fun hkey hdata => by simp [resultCode_of_key hkey, hdata]⟩
  · rw [engineTurn_command_errCode hbusy hcmd hturn]
    exact resultCode_keyNotSet rfl hkey

end Sys2Proof.Machine
end

section
/-! PROOFS. The statements of the reset family (70_reset_and_hazards.md): what ends a running command. A bus access leaves the
sequencer BUSY, so the engine's completion and the reset are all that is left. -/

namespace Sys2Proof.Machine

open Sys2Proof

/-! ### What the reset leaves (R44, R291) -/

/-- R42, R44: reset clears `CTRL.IE` and DONE, so IRQ is 0. -/
@[simp] theorem applyReset_irq (s : State) : (applyReset s).irq = false := rfl

/-- R291: what the reset leaves does not depend on the command latched or on whether it is running. -/
theorem applyReset_forgets_command (c : Word) (q : Seq) (s : State) :
    applyReset { s with curCmd := c, seq := q } = applyReset s := rfl

/-- R211: the engine's step is not enabled while IDLE. -/
theorem engineTurn_idle {s : State} (h : s.seq = .idle) : engineTurn s = .next s := by
  rw [engineTurn, h]

/-! ### What leaves the sequencer BUSY (R70, R201, R291) -/

theorem memRead_seq (a : Addr) (s : State) : (memRead a s).seq = s.seq := by
  obtain ⟨_, -, hx⟩ | ⟨-, hx⟩ | ⟨_, hx⟩ := memRead_cases a s <;> simp [hx]

theorem regWrite_seq_busy (r : Reg) (v : Word) {s : State} (h : s.seq = .busy) : (regWrite r v s).seq = .busy := by
  obtain ⟨_, hx⟩ | ⟨-, hx⟩ | ⟨-, hx⟩ | ⟨-, -, hx⟩ | ⟨_, -, -, -, hx⟩ := regWrite_cases r v s <;> simp [hx, h]

theorem memWrite_seq_busy (a : Addr) (v : Word) {s : State} (h : s.seq = .busy) : (memWrite a v s).seq = .busy := by
  obtain ⟨_, hx⟩ | ⟨r, -, hx⟩ | ⟨_, _, -, -, hx⟩ := memWrite_cases a v s
  · simp [hx, h]
  · exact hx ▸ regWrite_seq_busy r v h
  · simp [hx, h]

/-! ### What ends a command (R202) -/

/-- A command ends in a completion, with its effect before it or without one. -/
theorem exec_completes (i : Instr) (s : State) : ∃ code r, exec i s = .next (complete code r) := by
  obtain ⟨-, hx⟩ | ⟨-, hx⟩ := exec_cases i s
  · exact ⟨_, _, hx⟩
  · exact ⟨_, _, hx⟩

/-- While BUSY the engine's turn is a completion, whatever CUR_CMD holds (R202, R251). -/
theorem engineTurn_busy_completes {s : State} (h : s.seq = .busy) : ∃ code r, engineTurn s = .next (complete code r) := by
  obtain ⟨hidle, -⟩ | ⟨-, i, -, hx⟩ | ⟨-, _, -, hx⟩ := engineTurn_cases s
  · simp [h] at hidle
  · rw [hx]
    exact exec_completes i s
  · exact ⟨_, _, hx⟩

/-- R291: a step that takes a BUSY block to IDLE is the reset or the engine's completion. -/
theorem perform_busy_to_idle {e : Event} {s u : State} (hbusy : s.seq = .busy) (h : perform e s = .next u)
    (hidle : u.seq = .idle) : e = .reset ∨ (e = .engine ∧ u.status.done = true) := by
  cases e with
  | read a =>
    cases h
    simp [memRead_seq, hbusy] at hidle
  | write a v =>
    cases h
    simp [memWrite_seq_busy a v hbusy] at hidle
  | engine =>
    obtain ⟨code, r, hx⟩ := engineTurn_busy_completes hbusy
    obtain rfl : complete code r = u := Host.Outcome.next.inj (hx.symm.trans h)
    exact .inr ⟨rfl, rfl⟩
  | reset => exact .inl rfl

/-- Settles O52: the reset's state forgets the command and is IDLE, where the engine does nothing; what else can leave BUSY is
`perform_busy_to_idle`. -/
theorem resetEndsRunningCommand : Obligations.ResetEndsRunningCommand := by
  refine fun s hbusy => ⟨⟨applyReset s, rfl, applyReset_seq s, rfl, applyReset_irq s, fun w => ?_, rfl, fun c => ?_, ?_⟩,
    fun _ _ => perform_busy_to_idle hbusy⟩
  · exact ⟨applyReset_lenOf s w, applyReset_validOf s w⟩
  · exact congrArg Host.Outcome.next (applyReset_forgets_command c .idle s)
  · exact engineTurn_idle (applyReset_seq s)

end Sys2Proof.Machine
end

section
/-! PROOFS. The statement of the encoding (30_encoding.md) that decoding and encoding agree in both directions. -/

namespace Sys2Proof.Machine

open Sys2Proof

/-- Settles O1: the fields cover the word, so only a command's own word has its fields; and those fields decode to it. -/
theorem decodeMatchesEncode : Obligations.DecodeMatchesEncode := fun _ _ => decode_eq_command_iff

end Sys2Proof.Machine
end

section
/-! PROOFS. The statements about every step: what each operation leaves of the buffers and of a running command, said once, and
from it the invariant, the valid bits, the operands while BUSY and the completion of every command. -/

namespace Sys2Proof.Machine

open Sys2Proof

/-! ### What leaves every buffer as it is (R34, R36, R39) -/

/-- From `s` to `t` no buffer changes: not what its bytes are read from, its capacity, its length or its valid bit. -/
structure SameBuffers (s t : State) : Prop where
  cfg : t.cfg = s.cfg
  mem : t.mem = s.mem
  draw : ∀ w, t.drawOf w = s.drawOf w
  len : ∀ w, t.lenOf w = s.lenOf w
  valid : ∀ w, t.validOf w = s.validOf w

theorem SameBuffers.trans {r s t : State} (h : SameBuffers r s) (h' : SameBuffers s t) : SameBuffers r t where
  cfg := h'.cfg.trans h.cfg
  mem := h'.mem.trans h.mem
  draw w := (h'.draw w).trans (h.draw w)
  len w := (h'.len w).trans (h.len w)
  valid w := (h'.valid w).trans (h.valid w)

theorem SameBuffers.bytes {s t : State} (h : SameBuffers s t) (w : Window) (i : Nat) : t.bufByte w i = s.bufByte w i :=
  bufByte_congr w h.mem (h.draw w) i

theorem SameBuffers.session {s t : State} (h : SameBuffers s t) (w : Window) : t.session w = s.session w :=
  session_congr w h.mem (h.draw w) (h.len w)

/-- The fields of the state that its buffers are made of. -/
def State.bufferFields (s : State) : Config × Memory × (Nat × Nat × Nat) × (Len × Len × Len) × (Bool × Bool × Bool) :=
  (s.cfg, s.mem, (s.keyDraw, s.ptDraw, s.ctDraw), (s.keyLen, s.ptLen, s.ctLen),
    (s.status.keyValid, s.status.ptValid, s.status.ctValid))

theorem sameBuffers_of_fields {s t : State} (h : t.bufferFields = s.bufferFields) : SameBuffers s t := by
  simp only [State.bufferFields, Prod.mk.injEq] at h
  obtain ⟨hcfg, hmem, ⟨hkd, hpd, hcd⟩, ⟨hkl, hpl, hcl⟩, hkv, hpv, hcv⟩ := h
  exact ⟨hcfg, hmem, fun w => by cases w <;> assumption, fun w => by cases w <;> assumption,
    fun w => by cases w <;> assumption⟩

theorem sameBuffers_accept (v : Word) (s : State) : SameBuffers s (accept v s) :=
  sameBuffers_of_fields rfl

theorem sameBuffers_complete (code : ErrCode) (s : State) : SameBuffers s (complete code s) :=
  sameBuffers_of_fields rfl

theorem sameBuffers_storeDigest (d : Digest) (s : State) : SameBuffers s (storeDigest d s) :=
  sameBuffers_of_fields rfl

/-! ### What leaves a running command as it is (R70, R203) -/

/-- From `s` to `t` the command that runs, if any, and all that it computes on stay; no access sets DONE. -/
structure LeavesRunning (s t : State) : Prop where
  buffers : SameBuffers s t
  seq : t.seq = s.seq
  curCmd : t.curCmd = s.curCmd
  digest : t.digest = s.digest
  digestValid : t.status.digestValid = s.status.digestValid
  errCode : t.status.errCode = s.status.errCode
  done : s.status.done = false → t.status.done = false
  draws : s.draws ≤ t.draws
  events : t.events = s.events

theorem LeavesRunning.trans {r s t : State} (h : LeavesRunning r s) (h' : LeavesRunning s t) : LeavesRunning r t where
  buffers := h.buffers.trans h'.buffers
  seq := h'.seq.trans h.seq
  curCmd := h'.curCmd.trans h.curCmd
  digest := h'.digest.trans h.digest
  digestValid := h'.digestValid.trans h.digestValid
  errCode := h'.errCode.trans h.errCode
  done := h'.done ∘ h.done
  draws := h.draws.trans h'.draws
  events := h'.events.trans h.events

theorem leavesRunning_refuseAccess (why : AccCause) (s : State) : LeavesRunning s (refuseAccess why s) :=
  ⟨sameBuffers_of_fields rfl, rfl, rfl, rfl, rfl, rfl, id, le_rfl, rfl⟩

theorem leavesRunning_reply (d : Word) (s : State) : LeavesRunning s (reply d s) :=
  ⟨sameBuffers_of_fields rfl, rfl, rfl, rfl, rfl, rfl, id, le_rfl, rfl⟩

theorem leavesRunning_replyDrawn (s : State) : LeavesRunning s (replyDrawn s) :=
  ⟨sameBuffers_of_fields rfl, rfl, rfl, rfl, rfl, rfl, id, Nat.le_succ _, rfl⟩

theorem leavesRunning_ctrlWrite (ie : Bool) (s : State) : LeavesRunning s { s with ctrlIE := ie } :=
  ⟨sameBuffers_of_fields rfl, rfl, rfl, rfl, rfl, rfl, id, le_rfl, rfl⟩

theorem leavesRunning_statusWrite (v : Word) (s : State) :
    LeavesRunning s { s with status := s.status.onStatusWrite v } :=
  ⟨sameBuffers_of_fields rfl, rfl, rfl, rfl, rfl, rfl, fun h => by rw [onStatusWrite_done, h, Bool.false_and], le_rfl, rfl⟩

/-- R71: no read changes what a command computes on. -/
theorem leavesRunning_memRead (a : Addr) (s : State) : LeavesRunning s (memRead a s) := by
  obtain ⟨why, -, hx⟩ | ⟨-, hx⟩ | ⟨d, hx⟩ := memRead_cases a s <;> rw [hx]
  · exact (leavesRunning_refuseAccess why s).trans (leavesRunning_reply 0 _)
  · exact leavesRunning_replyDrawn s
  · exact leavesRunning_reply d s

/-- A write leaves a running command as it is, or the block is IDLE and it is one of the three writes of R34, R62 and R200. -/
theorem memWrite_effects (a : Addr) (v : Word) (s : State) :
    LeavesRunning s (memWrite a v s) ∨
      (s.seq = .idle ∧ memWrite a v s = accept v s) ∨
        (s.seq = .idle ∧ ∃ w, v.toNat ≤ w.cap s.cfg ∧ memWrite a v s = setLen w (v.setWidth 17) s) ∨
          (s.seq = .idle ∧ ∃ w i, i + 3 < w.cap s.cfg ∧ memWrite a v s = writeBuf w i (le32Bytes v) s) := by
  obtain ⟨why, hx⟩ | ⟨r, -, hx⟩ | ⟨w, i, ht, hidle, hx⟩ := memWrite_cases a v s
  · exact .inl (hx ▸ leavesRunning_refuseAccess why s)
  · rw [hx]
    obtain ⟨why, hr⟩ | ⟨-, hr⟩ | ⟨-, hr⟩ | ⟨-, hidle, hr⟩ | ⟨w, -, hidle, hv, hr⟩ := regWrite_cases r v s <;> rw [hr]
    · exact .inl (leavesRunning_refuseAccess why s)
    · exact .inl (leavesRunning_ctrlWrite _ s)
    · exact .inl (leavesRunning_statusWrite v s)
    · exact .inr (.inl ⟨hidle, rfl⟩)
    · exact .inr (.inr (.inl ⟨hidle, w, hv, rfl⟩))
  · obtain ⟨-, hfit, -⟩ := target_buf ht
    exact .inr (.inr (.inr ⟨hidle, w, i, hfit, hx⟩))

theorem not_idle_and_busy {s : State} (hidle : s.seq = .idle) (hbusy : s.seq = .busy) : False :=
  Seq.noConfusion (hidle.symm.trans hbusy)

/-- R70, R203: no write while BUSY changes what the running command computes on. -/
theorem leavesRunning_memWrite (a : Addr) (v : Word) {s : State} (h : s.seq = .busy) : LeavesRunning s (memWrite a v s) := by
  obtain hx | ⟨hidle, -⟩ | ⟨hidle, -⟩ | ⟨hidle, -⟩ := memWrite_effects a v s
  · exact hx
  all_goals exact (not_idle_and_busy hidle h).elim

/-- R203: what the host does while BUSY leaves the running command and its operands. -/
theorem leavesRunning_perform {e : Event} {s t : State} (hbusy : s.seq = .busy) (hengine : e ≠ .engine) (hreset : e ≠ .reset)
    (h : perform e s = .next t) : LeavesRunning s t := by
  cases e with
  | read a =>
    cases h
    exact leavesRunning_memRead a s
  | write a v =>
    cases h
    exact leavesRunning_memWrite a v hbusy
  | engine => exact absurd rfl hengine
  | reset => exact absurd rfl hreset

/-- Settles O21: the frame of every host event while BUSY, read off field by field. -/
theorem operandsFixedWhileBusy : Obligations.OperandsFixedWhileBusy := by
  intro s t e hbusy hengine hreset h
  have hleaves := leavesRunning_perform hbusy hengine hreset h
  have hsame := hleaves.buffers
  exact ⟨hleaves.seq.trans hbusy, hleaves.curCmd, hsame.cfg, hleaves.digest, hleaves.digestValid,
    fun w => ⟨hsame.bytes w, hsame.len w, hsame.valid w, hsame.session w⟩⟩

/-! ### What the engine does (R202, R206, R211) -/

/-- The engine's turn: nothing while IDLE; while BUSY a command's effect and OK, or an error code of R250 and no effect. -/
theorem engineTurn_effects (s : State) :
    (s.seq = .idle ∧ engineTurn s = .next s) ∨
      (s.seq = .busy ∧ ∃ i, engineTurn s = .next (complete .ok (commandEffect i s))) ∨
        (s.seq = .busy ∧ ∃ code, code ≠ .ok ∧ code ≠ .hashUnavailable ∧ engineTurn s = .next (complete code s)) := by
  obtain hidle | ⟨hbusy, i, -, hx⟩ | ⟨hbusy, why, -, hx⟩ := engineTurn_cases s
  · exact .inl hidle
  · obtain ⟨-, hi⟩ | ⟨herr, hi⟩ := exec_cases i s
    · exact .inr (.inl ⟨hbusy, i, hx.trans hi⟩)
    · have hreal : resultCode s i ≠ .hashUnavailable := by
        obtain hc | hc | hc := resultCode_cases s i <;> simp [hc]
      exact .inr (.inr ⟨hbusy, _, herr, hreal, hx.trans hi⟩)
  · exact .inr (.inr ⟨hbusy, .illegalCmd, by decide, by decide, hx⟩)

/-- A command's effect is on DIGEST, or it is the transform of one data buffer into the other. -/
theorem commandEffect_cases (i : Instr) (s : State) :
    (∃ d, commandEffect i s = storeDigest d s) ∨
      ∃ inp out : Window, inp ≠ out ∧ .key ≠ out ∧ (∀ c, inp.cap c = out.cap c) ∧
        commandEffect i s =
          storeSession out (s.lenOf inp) (transform s.cfg.iterCount (s.session .key) (s.session inp)) s := by
  cases i with
  | hash src => exact .inl ⟨_, rfl⟩
  | iterhash src => exact .inl ⟨_, rfl⟩
  | encrypt => exact .inr ⟨.pt, .ct, by decide, by decide, fun _ => rfl, rfl⟩
  | decrypt => exact .inr ⟨.ct, .pt, by decide, by decide, fun _ => rfl, rfl⟩

/-! ### The invariant (R31, R34, R254, R302) -/

/-- The invariant speaks of the buffers, the draws made, and DONE and ERRCODE. -/
theorem BlockInv.of_sameBuffers {s t : State} (h : BlockInv s) (hsame : SameBuffers s t) (hdraws : s.draws ≤ t.draws)
    (hbusy : t.seq = .busy → t.status.done = false ∧ t.status.errCode = .ok)
    (hcode : t.status.errCode ≠ .hashUnavailable) : BlockInv t where
  cfg_ok := by rw [hsame.cfg]; exact h.cfg_ok
  mem_rising := by rw [hsame.mem]; exact h.mem_rising
  mem_mapped := by rw [hsame.mem, hsame.cfg]; exact h.mem_mapped
  len_fits w := by rw [hsame.len, hsame.cfg]; exact h.len_fits w
  unset_empty w := by rw [hsame.valid, hsame.len]; exact h.unset_empty w
  busy_clear := hbusy
  code_real := hcode
  draws_made w := by rw [hsame.draw]; exact (h.draws_made w).trans_le hdraws

theorem BlockInv.of_leavesRunning {s t : State} (h : BlockInv s) (ht : LeavesRunning s t) : BlockInv t := by
  refine h.of_sameBuffers ht.buffers ht.draws (fun hbusy => ?_) (by rw [ht.errCode]; exact h.code_real)
  obtain ⟨hdone, hok⟩ := h.busy_clear (ht.seq.symm.trans hbusy)
  exact ⟨ht.done hdone, ht.errCode.trans hok⟩

theorem blockInv_accept {s : State} (h : BlockInv s) (v : Word) : BlockInv (accept v s) :=
  h.of_sameBuffers (sameBuffers_accept v s) le_rfl (fun _ => ⟨rfl, rfl⟩) (by simp)

theorem blockInv_complete {s : State} (h : BlockInv s) {code : ErrCode} (hcode : code ≠ .hashUnavailable) :
    BlockInv (complete code s) :=
  h.of_sameBuffers (sameBuffers_complete code s) le_rfl (by simp) (by simpa using hcode)

theorem blockInv_storeDigest {s : State} (h : BlockInv s) (d : Digest) : BlockInv (storeDigest d s) :=
  h.of_sameBuffers (sameBuffers_storeDigest d s) le_rfl h.busy_clear h.code_real

/-- R34: a length within the capacity, with its valid bit. -/
theorem blockInv_setLen {s : State} (h : BlockInv s) {w : Window} {n : Len} (hn : n.toNat ≤ w.cap s.cfg) :
    BlockInv (setLen w n s) where
  cfg_ok := by simpa using h.cfg_ok
  mem_rising := by simpa using h.mem_rising
  mem_mapped := by simpa using h.mem_mapped
  len_fits v := by
    rw [setLen_lenOf, setLen_cfg]
    split
    · next hv => exact hv ▸ hn
    · exact h.len_fits v
  unset_empty v := by
    rw [setLen_validOf, setLen_lenOf, Bool.or_eq_false_iff, decide_eq_false_iff_not]
    rintro ⟨hv, hunset⟩
    rw [if_neg hv]
    exact h.unset_empty v hunset
  busy_clear := by simpa using h.busy_clear
  code_real := by simpa using h.code_real
  draws_made v := by simpa using h.draws_made v

/-- R62: bytes within the capacity of their buffer. -/
theorem blockInv_writeBuf {s : State} (h : BlockInv s) {w : Window} {i : Nat} {bytes : ByteSeq}
    (hfit : i + bytes.length ≤ w.cap s.cfg) : BlockInv (writeBuf w i bytes s) where
  cfg_ok := h.cfg_ok
  mem_rising := wf_setBytes _ _ _ h.mem_rising
  mem_mapped c hc := by
    obtain ⟨hlo, hhi⟩ | hold := mem_of_mem_setBytes hc
    · exact ⟨w, by omega, by rw [writeBuf_cfg]; omega⟩
    · exact h.mem_mapped c hold
  len_fits v := by simpa using h.len_fits v
  unset_empty v := by simpa using h.unset_empty v
  busy_clear := h.busy_clear
  code_real := h.code_real
  draws_made v := by simpa using h.draws_made v

/-- R37, R182: the new draw of a buffer is one of those made. -/
theorem blockInv_redraw {s : State} (h : BlockInv s) (w : Window) : BlockInv (redraw w s) where
  cfg_ok := by simpa using h.cfg_ok
  mem_rising := by rw [redraw_mem]; exact wf_forget _ _ _ h.mem_rising
  mem_mapped c hc := by
    rw [redraw_mem] at hc
    rw [redraw_cfg]
    exact h.mem_mapped c (mem_of_mem_forget hc)
  len_fits v := by simpa using h.len_fits v
  unset_empty v := by simpa using h.unset_empty v
  busy_clear := by simpa using h.busy_clear
  code_real := by simpa using h.code_real
  draws_made v := by
    rw [redraw_drawOf, redraw_draws]
    split
    · exact Nat.lt_succ_self _
    · exact Nat.lt_succ_of_lt (h.draws_made v)

/-- R180, R181: an output within the capacity of its buffer. -/
theorem blockInv_storeSession {s : State} (h : BlockInv s) {w : Window} {n : Len} {bytes : ByteSeq}
    (hn : n.toNat ≤ w.cap s.cfg) (hbytes : bytes.length ≤ w.cap s.cfg) : BlockInv (storeSession w n bytes s) :=
  blockInv_setLen (blockInv_writeBuf (blockInv_redraw h w) (by simpa using hbytes)) (by simpa using hn)

/-- A command's effect keeps the invariant: the two data buffers have one capacity, so an output fits where its input did. -/
theorem blockInv_commandEffect {s : State} (h : BlockInv s) (i : Instr) : BlockInv (commandEffect i s) := by
  obtain ⟨d, hx⟩ | ⟨inp, out, -, -, hcap, hx⟩ := commandEffect_cases i s <;> rw [hx]
  · exact blockInv_storeDigest h d
  · have hfit : (s.lenOf inp).toNat ≤ out.cap s.cfg := hcap s.cfg ▸ h.len_fits inp
    exact blockInv_storeSession h hfit (by rwa [transform_length, session_length])

theorem blockInv_engineTurn {s t : State} (h : BlockInv s) (ht : engineTurn s = .next t) : BlockInv t := by
  obtain ⟨-, hx⟩ | ⟨-, i, hx⟩ | ⟨-, code, -, hcode, hx⟩ := engineTurn_effects s <;> (rw [hx] at ht; cases ht)
  · exact h
  · exact blockInv_complete (blockInv_commandEffect h i) (by decide)
  · exact blockInv_complete h hcode

theorem blockInv_memWrite {s : State} (h : BlockInv s) (a : Addr) (v : Word) : BlockInv (memWrite a v s) := by
  obtain hx | ⟨-, hx⟩ | ⟨-, w, hv, hx⟩ | ⟨-, w, i, hfit, hx⟩ := memWrite_effects a v s
  · exact h.of_leavesRunning hx
  · exact hx ▸ blockInv_accept h v
  · rw [hx]
    refine blockInv_setLen h (le_trans ?_ hv)
    rw [BitVec.toNat_setWidth]
    exact Nat.mod_le _ _
  · rw [hx]
    exact blockInv_writeBuf h (by rw [le32Bytes_length]; omega)

/-- R290: a reset leaves nothing that the invariant could fail on, in a block with legal parameters. -/
theorem blockInv_applyReset {s : State} (h : BlockInv s) : BlockInv (applyReset s) where
  cfg_ok := h.cfg_ok
  mem_rising := rfl
  mem_mapped := by simp
  len_fits w := by simp
  unset_empty w := by simp
  busy_clear := by simp
  code_real := by simp [Status.cleared]
  draws_made w := by simp

theorem blockInv_perform {e : Event} {s t : State} (h : BlockInv s) (ht : perform e s = .next t) : BlockInv t := by
  cases e with
  | read a =>
    cases ht
    exact h.of_leavesRunning (leavesRunning_memRead a s)
  | write a v =>
    cases ht
    exact blockInv_memWrite h a v
  | engine => exact blockInv_engineTurn h ht
  | reset =>
    cases ht
    exact blockInv_applyReset h

/-- The schedule is no part of what the invariant speaks of. -/
theorem blockInv_events {s : State} (h : BlockInv s) (es : List Event) : BlockInv { s with events := es } :=
  h.of_sameBuffers (sameBuffers_of_fields rfl) le_rfl h.busy_clear h.code_real

/-- Settles O56: a step is the engine's turn or one event's, and each of these keeps the invariant. -/
theorem stepKeepsInvariant : Obligations.StepKeepsInvariant := by
  intro s t h ht
  obtain ⟨-, hx⟩ | ⟨e, rest, -, hx⟩ := step_cases s
  · exact blockInv_engineTurn h (hx ▸ ht)
  · exact blockInv_perform (blockInv_events h rest) (hx ▸ ht)

/-- Settles O57: State.reset is idle with no byte written, and draw 0 is the one draw made. -/
theorem resetMeetsInvariant : Obligations.ResetMeetsInvariant where
  cfg_ok := rfl
  mem_rising := rfl
  mem_mapped := by simp [State.reset]
  len_fits w := by
    rw [show State.reset.lenOf w = 0 by cases w <;> rfl]
    exact Nat.zero_le _
  unset_empty w _ := by cases w <;> rfl
  busy_clear := nofun
  code_real := by simp [State.reset, Status.cleared]
  draws_made w := by
    rw [show State.reset.drawOf w = 0 by cases w <;> rfl]
    exact Nat.one_pos

/-! ### Valid bits (R32) -/

/-- From `s` to `t` no valid bit goes from 1 to 0. -/
def ValidStays (s t : State) : Prop :=
  (∀ w, s.validOf w = true → t.validOf w = true) ∧ (s.status.digestValid = true → t.status.digestValid = true)

theorem ValidStays.trans {r s t : State} (h : ValidStays r s) (h' : ValidStays s t) : ValidStays r t :=
  ⟨fun w => h'.1 w ∘ h.1 w, h'.2 ∘ h.2⟩

theorem SameBuffers.validStays {s t : State} (h : SameBuffers s t)
    (hd : s.status.digestValid = true → t.status.digestValid = true) : ValidStays s t :=
  ⟨fun w => (h.valid w).trans, hd⟩

theorem LeavesRunning.validStays {s t : State} (h : LeavesRunning s t) : ValidStays s t :=
  h.buffers.validStays h.digestValid.trans

theorem validStays_complete (code : ErrCode) (s : State) : ValidStays s (complete code s) :=
  (sameBuffers_complete code s).validStays id

theorem validStays_commandEffect (i : Instr) (s : State) : ValidStays s (commandEffect i s) := by
  obtain ⟨d, hx⟩ | ⟨inp, out, -, -, -, hx⟩ := commandEffect_cases i s <;> rw [hx]
  · exact (sameBuffers_storeDigest d s).validStays fun _ => rfl
  · exact ⟨fun w hw => by simp [hw], by simp⟩

theorem validStays_memWrite (a : Addr) (v : Word) (s : State) : ValidStays s (memWrite a v s) := by
  obtain hx | ⟨-, hx⟩ | ⟨-, w, -, hx⟩ | ⟨-, w, i, -, hx⟩ := memWrite_effects a v s
  · exact hx.validStays
  · exact hx ▸ (sameBuffers_accept v s).validStays id
  · rw [hx]
    exact ⟨fun u hu => by simp [hu], by simp⟩
  · rw [hx]
    exact ⟨fun u hu => by simp [hu], by simp⟩

theorem validStays_engineTurn {s t : State} (ht : engineTurn s = .next t) : ValidStays s t := by
  obtain ⟨-, hx⟩ | ⟨-, i, hx⟩ | ⟨-, code, -, -, hx⟩ := engineTurn_effects s <;> (rw [hx] at ht; cases ht)
  · exact ⟨fun _ => id, id⟩
  · exact (validStays_commandEffect i s).trans (validStays_complete .ok _)
  · exact validStays_complete code s

/-- Settles O36: an access or a completion only ever writes 1 to a valid bit. -/
theorem validBitsStick : Obligations.ValidBitsStick := by
  intro s t e hreset ht
  cases e with
  | read a =>
    cases ht
    exact (leavesRunning_memRead a s).validStays
  | write a v =>
    cases ht
    exact validStays_memWrite a v s
  | engine => exact validStays_engineTurn ht
  | reset => exact absurd rfl hreset

/-! ### Every step answers, and every command completes (R60, R202, R207) -/

/-- Log entry 4: with no event left the engine moves. -/
theorem step_of_no_events {s : State} (h : s.events = []) : step s = engineTurn s := by
  rw [step, turn, h]

/-- R74, R211: the next event is taken from the list and performed. -/
theorem step_of_events {s : State} {e : Event} {rest : List Event} (h : s.events = e :: rest) :
    step s = perform e { s with events := rest } := by
  rw [step, turn, h]

theorem engineTurn_answers (s : State) : ∃ t, engineTurn s = .next t := by
  obtain ⟨-, hx⟩ | ⟨-, i, hx⟩ | ⟨-, code, -, -, hx⟩ := engineTurn_effects s <;> exact ⟨_, hx⟩

theorem perform_answers (e : Event) (s : State) : ∃ t, perform e s = .next t := by
  cases e with
  | read a => exact ⟨_, rfl⟩
  | write a v => exact ⟨_, rfl⟩
  | engine => exact engineTurn_answers s
  | reset => exact ⟨_, rfl⟩

/-- Settles O55: the engine's turn and each event's step answer a next state. -/
theorem stepAlwaysAnswersNext : Obligations.StepAlwaysAnswersNext := by
  intro s
  obtain ⟨-, hx⟩ | ⟨e, rest, -, hx⟩ := step_cases s <;> rw [hx]
  · exact engineTurn_answers s
  · exact perform_answers e _

/-- A step that answers `t` is followed by the steps from `t`. -/
theorem run_succ {s t : State} (h : step s = .next t) (k : Nat) :
    Host.Core.run core (k + 1) s = Host.Core.run core k t := by
  have hcore : core.step s = .next t := h
  simp only [Host.Core.run, hcore]

/-- A step that is the engine's turn on a BUSY block completes its command. -/
theorem run_one_completes {s r : State} (hbusy : r.seq = .busy) (hstep : step s = engineTurn r) :
    ∃ t, Host.Core.run core 1 s = .next t ∧ t.seq = .idle ∧ t.status.done = true := by
  obtain ⟨code, u, hx⟩ := engineTurn_busy_completes hbusy
  exact ⟨complete code u, run_succ (hstep.trans hx) 0, rfl, rfl⟩

/-- The bound of R207, by induction on the events: a bus access leaves the command running with one event fewer. -/
theorem completes_within (es : List Event) {s : State} (hes : s.events = es) (hbusy : s.seq = .busy)
    (hreset : Event.reset ∉ es) :
    ∃ k t, k ≤ es.length + 1 ∧ Host.Core.run core k s = .next t ∧ t.seq = .idle ∧ t.status.done = true := by
  induction es generalizing s with
  | nil =>
    obtain ⟨t, ht⟩ := run_one_completes hbusy (step_of_no_events hes)
    exact ⟨1, t, le_rfl, ht⟩
  | cons e rest ih =>
    have hstep := step_of_events hes
    rw [List.mem_cons, not_or] at hreset
    obtain ⟨hne, hrest⟩ := hreset
    by_cases hengine : e = .engine
    · subst hengine
      obtain ⟨t, ht⟩ := run_one_completes (r := { s with events := rest }) hbusy hstep
      exact ⟨1, t, Nat.le_add_left .., ht⟩
    · obtain ⟨u, hu⟩ := perform_answers e { s with events := rest }
      have hleaves := leavesRunning_perform (s := { s with events := rest }) hbusy hengine (Ne.symm hne) hu
      obtain ⟨k, t, hk, hrun, ht⟩ := ih hleaves.events (hleaves.seq.trans hbusy) hrest
      exact ⟨k + 1, t, Nat.succ_le_succ hk, (run_succ (hstep.trans hu) k).trans hrun, ht⟩

/-- Settles O20, by the induction on the schedule. -/
theorem acceptedCommandEventuallyCompletes : Obligations.AcceptedCommandEventuallyCompletes :=
  fun _ hbusy hreset => completes_within _ rfl hbusy hreset

end Sys2Proof.Machine
end

section
/-! PROOFS. The statements about the engine and the commands (40_sha256_core.md, 41_iterated_hash.md, 43_xor_transform.md,
44_command_sequencer.md, 60_exceptions.md): which command runs, what a completed one leaves, and what a failed one leaves. -/

namespace Sys2Proof.Machine

open Sys2Proof

/-! ### Which command the engine runs (R202, R204) -/

/-- R204: while BUSY the engine executes what CUR_CMD decodes to. -/
theorem engineTurn_command {s : State} {i : Instr} (hbusy : s.seq = .busy) (hcmd : decode s.curCmd = .command i) :
    engineTurn s = exec i s := by
  rw [engineTurn, hbusy]
  simp only [hcmd]

/-- R251: while BUSY the engine completes an illegal CUR_CMD with ILLEGAL_CMD. -/
theorem engineTurn_illegal {s : State} {why : Illegal} (hbusy : s.seq = .busy) (hill : decode s.curCmd = .illegal why) :
    engineTurn s = .next (complete .illegalCmd s) := by
  rw [engineTurn, hbusy]
  simp only [hill]
  rfl

/-- Settles O6: the step is the engine's turn, which executes the decoded command. -/
theorem engineStepRunsDecodedCommand : Obligations.EngineStepRunsDecodedCommand := by
  refine fun s i hbusy hcmd => ⟨fun hes => ?_, fun rest hes => ?_⟩
  · rw [step_of_no_events hes, engineTurn_command hbusy hcmd]
  · exact (step_of_events hes).trans (engineTurn_command (s := { s with events := rest }) hbusy hcmd)

/-- Log entry 5: after `placeCommand` the next step is the engine's turn on the state that has accepted the word. -/
theorem step_placeCommand (w : Word) (s : State) : step (placeCommand w s) = engineTurn (accept w s) := by
  unfold placeCommand
  cases hes : s.events with
  | nil => exact step_of_no_events hes
  | cons e rest =>
    rw [step_of_events rfl]
    have hrestored : { accept w s with events := e :: rest } = accept w s := by rw [← hes]; rfl
    exact congrArg engineTurn hrestored

/-- A table row's instruction is what its word decodes to. -/
theorem decode_of_decodeTableWord {nbits w : Nat} {i : Instr} (h : decodeTableWord nbits w = some i) :
    decode (tableWord nbits w) = .command i := by
  unfold decodeTableWord at h
  split at h
  · next hcmd => rw [hcmd, Option.some.inj h]
  · cases h

/-- Settles O7: the placed word is accepted, and the engine's turn that follows executes it. -/
theorem placedWordRunsNext : Obligations.PlacedWordRunsNext := by
  intro s nbits w i h
  rw [State.withFetchWord, step_placeCommand]
  exact engineTurn_command rfl (decode_of_decodeTableWord h)

/-- Settles O54: the engine's turn does nothing while IDLE. -/
theorem idleBlockWaits : Obligations.IdleBlockWaits := by
  have quiet : ∀ s : State, s.seq = .idle → s.events = [] → step s = .next s := fun s hidle hes =>
    (step_of_no_events hes).trans (engineTurn_idle hidle)
  exact ⟨quiet, fun s rest hidle hes => (step_of_events hes).trans (engineTurn_idle (s := { s with events := rest }) hidle),
    quiet State.reset rfl rfl⟩

/-! ### What every completion leaves (R202, R206, R251) -/

/-- A command's effect is on the operands alone: what the sequencer and the host hold is as before. -/
theorem commandEffect_control (i : Instr) (s : State) :
    (commandEffect i s).ctrlIE = s.ctrlIE ∧ (commandEffect i s).status.accErr = s.status.accErr ∧
      (commandEffect i s).curCmd = s.curCmd ∧ (commandEffect i s).cfg = s.cfg ∧
        (commandEffect i s).events = s.events ∧ (commandEffect i s).replies = s.replies := by
  obtain ⟨d, hx⟩ | ⟨inp, out, -, -, -, hx⟩ := commandEffect_cases i s <;> simp [hx]

/-- R42, R202: a completion sets DONE, so IRQ is `CTRL.IE`. -/
@[simp] theorem complete_irq (code : ErrCode) (s : State) : (complete code s).irq = s.ctrlIE := Bool.and_true _

/-- Settles O17: the turn ends in a completion, with a command's effect before it or without one. -/
theorem engineTurnCompletes : Obligations.EngineTurnCompletes := by
  intro s hbusy
  obtain ⟨hidle, -⟩ | ⟨-, i, hx⟩ | ⟨-, code, -, -, hx⟩ := engineTurn_effects s
  · exact (not_idle_and_busy hidle hbusy).elim
  · obtain ⟨hie, hacc, hcmd, hcfg, hevents, hreplies⟩ := commandEffect_control i s
    exact ⟨_, hx, rfl, rfl, (complete_irq ..).trans hie, hie, hacc, hcmd, hcfg, hevents, hreplies⟩
  · exact ⟨_, hx, rfl, rfl, complete_irq .., rfl, rfl, rfl, rfl, rfl, rfl⟩

/-- Settles O14: a completion after an effect reports OK, so an error is a completion alone. -/
theorem failedCommandChangesOnlyStatus : Obligations.FailedCommandChangesOnlyStatus := by
  intro s t hbusy ht herr
  obtain ⟨hidle, -⟩ | ⟨-, i, hx⟩ | ⟨-, code, -, -, hx⟩ := engineTurn_effects s
  · exact (not_idle_and_busy hidle hbusy).elim
  · rw [hx] at ht
    cases ht
    exact absurd rfl herr
  · rw [hx] at ht
    cases ht
    rfl

/-- Settles O16: such a word fails a check of its fields, and the engine then only completes. -/
theorem illegalCommandReports : Obligations.IllegalCommandReports := by
  intro s w hw
  have hill : ∃ why, decode w = .illegal why := by
    refine illegal_iff_not_wellFormed.2 (not_wellFormed_iff.2 ?_)
    obtain hrsvd | (hop | hop) | ⟨hsrc, hop⟩ := hw
    · exact .inl hrsvd
    · exact .inr (.inl hop)
    · exact .inr (.inr (.inl hop))
    · exact .inr (.inr (.inr ⟨hop, hsrc⟩))
  obtain ⟨why, hill⟩ := hill
  rw [engineTurn_illegal (s := accept w s) rfl hill]
  rfl

/-! ### HASH and ITERHASH (R122, R143) -/

/-- Settles O8: with its source set HASH stores the hash and completes. -/
theorem hashCompletes : Obligations.HashCompletes := by
  intro s src hset
  rw [exec_hash_ok hset]
  rfl

/-- Settles O9: with its source set ITERHASH stores the iterated hash and completes. -/
theorem iterhashCompletes : Obligations.IterhashCompletes := by
  intro s src hset
  show execIterhash src s = _
  rw [execIterhash, if_pos hset]
  rfl

/-- Settles O12: whether it stores DIGEST or only completes, no buffer and no control field is touched. -/
theorem hashCommandsFrame : Obligations.HashCommandsFrame := by
  intro s t i src hi ht
  have htransforms : i ≠ .encrypt ∧ i ≠ .decrypt := by obtain rfl | rfl := hi <;> simp
  obtain ⟨d, hd⟩ := commandEffect_hash_commands htransforms.1 htransforms.2 s
  obtain ⟨-, hx⟩ | ⟨-, hx⟩ := exec_cases i s <;> (rw [hx] at ht; cases ht)
  · have hsame := (sameBuffers_storeDigest d s).trans (sameBuffers_complete .ok _)
    rw [hd]
    exact ⟨hsame.bytes, fun w => ⟨hsame.len w, hsame.valid w⟩, rfl, rfl, rfl, rfl, rfl, rfl, rfl, rfl⟩
  · have hsame := sameBuffers_complete (resultCode s i) s
    exact ⟨hsame.bytes, fun w => ⟨hsame.len w, hsame.valid w⟩, rfl, rfl, rfl, rfl, rfl, rfl, rfl, rfl⟩

/-! ### ENCRYPT and DECRYPT (R180 to R183) -/

/-- R205: with the key and the data source set there is no error. -/
theorem resultCode_ok {i : Instr} {s : State} (hkey : usesKey i = true → s.status.keyValid = true)
    (hdata : dataSet s i = true) : resultCode s i = .ok := by
  rw [resultCode_of_key hkey, if_pos hdata]

/-- R185: byte `i` of the transform is byte `i` of the data, exclusive-or byte `i` of the keystream. -/
theorem transform_getElem (iters : Nat) (key data : ByteSeq) (i : Nat) (h : i < (transform iters key data).length) :
    (transform iters key data)[i] =
      data[i]'(by simpa using h) ^^^ (deriveKeystream iters key data.length).getD i 0 := by
  have hi : i < data.length := by simpa using h
  simp only [transform, xorBytes, List.getElem_zipWith]
  rw [List.getD_eq_getElem _ _ (by simpa using hi)]

/-- R180, R181: the output bytes of a transform of `inp` into `out`. -/
theorem storeSession_transform_bufByte (s : State) (inp out : Window) {i : Nat} (hi : i < (s.lenOf inp).toNat) :
    (storeSession out (s.lenOf inp) (transform s.cfg.iterCount (s.session .key) (s.session inp)) s).bufByte out i =
      s.bufByte inp i ^^^ (deriveKeystream s.cfg.iterCount (s.session .key) (s.lenOf inp).toNat).getD i 0 := by
  rw [storeSession_bufByte_in _ _ _ _ _ (by simpa using hi), transform_getElem]
  simp only [session_length]
  congr 1
  exact bufBytes_getElem ..

/-- R182: the bytes of `out` beyond the transform of `inp`. -/
theorem storeSession_transform_beyond (s : State) (inp out : Window) {i : Nat} (hi : (s.lenOf inp).toNat ≤ i)
    (hs : i < Window.size) :
    (storeSession out (s.lenOf inp) (transform s.cfg.iterCount (s.session .key) (s.session inp)) s).bufByte out i =
      Config.freeByte s.draws (out.base + i) :=
  storeSession_bufByte_beyond _ _ _ _ _ (by simpa using hi) hs

/-- Settles O10: ENCRYPT completes the transform of the Plaintext into the Ciphertext's buffer. -/
theorem encryptCompletes : Obligations.EncryptCompletes := by
  intro s hk hp
  have hok : resultCode s .encrypt = .ok := resultCode_ok (fun _ => hk) hp
  exact ⟨_, exec_ok hok, rfl, rfl, rfl,
    fun i hi => (complete_bufByte ..).trans (storeSession_transform_bufByte s .pt .ct hi),
    fun i hi hs => (complete_bufByte ..).trans (storeSession_transform_beyond s .pt .ct hi hs)⟩

/-- Settles O11: DECRYPT completes the transform of the Ciphertext into the Plaintext's buffer. -/
theorem decryptCompletes : Obligations.DecryptCompletes := by
  intro s hk hc
  have hok : resultCode s .decrypt = .ok := resultCode_ok (fun _ => hk) hc
  exact ⟨_, exec_ok hok, rfl, rfl, rfl,
    fun i hi => (complete_bufByte ..).trans (storeSession_transform_bufByte s .ct .pt hi),
    fun i hi hs => (complete_bufByte ..).trans (storeSession_transform_beyond s .ct .pt hi hs)⟩

/-- R183: from `s` to `t` nothing changes but the buffer `out` and the STATUS fields of every command. -/
def LeavesAllBut (out : Window) (s t : State) : Prop :=
  (∀ w, w ≠ out →
      (∀ i < w.cap s.cfg, t.bufByte w i = s.bufByte w i) ∧ t.lenOf w = s.lenOf w ∧ t.validOf w = s.validOf w) ∧
    t.digest = s.digest ∧ t.status.digestValid = s.status.digestValid ∧ t.status.accErr = s.status.accErr ∧
    t.ctrlIE = s.ctrlIE ∧ t.curCmd = s.curCmd ∧ t.cfg = s.cfg ∧ t.events = s.events ∧ t.replies = s.replies

theorem leavesAllBut_complete (out : Window) (code : ErrCode) (s : State) : LeavesAllBut out s (complete code s) :=
  ⟨fun w _ => ⟨fun i _ => complete_bufByte s w i code, complete_lenOf .., complete_validOf ..⟩,
    rfl, rfl, rfl, rfl, rfl, rfl, rfl, rfl⟩

/-- An output inside its window's region leaves the other buffers. -/
theorem leavesAllBut_storeSession {s : State} (hwf : s.cfg.wf = true) (code : ErrCode) (out : Window) (n : Len)
    {bytes : ByteSeq} (hbytes : bytes.length ≤ Window.size) :
    LeavesAllBut out s (complete code (storeSession out n bytes s)) := by
  refine ⟨fun w hw => ⟨fun i hi => ?_, by simp [hw], by simp [hw]⟩, ?_⟩
  · rw [complete_bufByte]
    exact storeSession_bufByte_other s out w n bytes i hw hbytes (hi.trans_le (cap_le hwf w))
  · simp

/-- A command whose effect is a transform of `inp` into `out` leaves all but `out`, however it ends. -/
theorem leavesAllBut_exec {i : Instr} {inp out : Window} {s t : State} (h : BlockInv s)
    (heffect : commandEffect i s =
      storeSession out (s.lenOf inp) (transform s.cfg.iterCount (s.session .key) (s.session inp)) s)
    (ht : exec i s = .next t) : LeavesAllBut out s t := by
  obtain ⟨-, hx⟩ | ⟨-, hx⟩ := exec_cases i s <;> (rw [hx] at ht; cases ht)
  · rw [heffect]
    exact leavesAllBut_storeSession h.cfg_ok .ok out _ (by simpa using h.lengthsFit inp)
  · exact leavesAllBut_complete out _ s

/-- Settles O13, with CTMEM as the output of ENCRYPT and PTMEM as that of DECRYPT. -/
theorem transformFrame : Obligations.TransformFrame := fun _ _ h =>
  ⟨leavesAllBut_exec (inp := .pt) (out := .ct) h rfl, leavesAllBut_exec (inp := .ct) (out := .pt) h rfl⟩

/-- R180: ENCRYPT with its operands set leaves the transform of the Plaintext as the Ciphertext. -/
theorem exec_encrypt_session_ct {s t : State} (hk : s.status.keyValid = true) (hp : s.status.ptValid = true)
    (ht : exec .encrypt s = .next t) :
    t.session .ct = transform s.cfg.iterCount (s.session .key) (s.session .pt) ∧ t.ctLen = s.ptLen := by
  have hok : resultCode s .encrypt = .ok := resultCode_ok (fun _ => hk) hp
  rw [exec_ok hok] at ht
  cases ht
  refine ⟨?_, rfl⟩
  rw [complete_session]
  exact storeSession_session s .ct s.ptLen _ (by rw [transform_length, session_length]; rfl)

/-- Settles O50: the Ciphertext is a function of these operands, and PT_LEN is the length of the Plaintext. -/
theorem ciphertextDependsOnKeyAndPlaintextOnly : Obligations.CiphertextDependsOnKeyAndPlaintextOnly := by
  intro s r t u hiters hkey hpt hsk hrk hsp hrp ht hu
  obtain ⟨htct, htlen⟩ := exec_encrypt_session_ct hsk hsp ht
  obtain ⟨huct, hulen⟩ := exec_encrypt_session_ct hrk hrp hu
  have hlen : s.ptLen = r.ptLen := BitVec.eq_of_toNat_eq <| calc
    s.ptLen.toNat = (s.session .pt).length := (session_length s .pt).symm
    _ = (r.session .pt).length := by rw [hpt]
    _ = r.ptLen.toNat := session_length r .pt
  exact ⟨by rw [htct, huct, hiters, hkey, hpt], by rw [htlen, hulen, hlen]⟩

end Sys2Proof.Machine
end

section
/-! PROOFS. The statements about the registers and the bus (10_state.md, 20_memory.md, 60_exceptions.md): the layout of STATUS
and CTRL, their writes and the interrupt, the length registers, the words of the buffers and of DIGEST, the busy lockout, and
refused accesses. -/

namespace Sys2Proof.Machine

open Sys2Proof

/-! ### STATUS and CTRL (R26, R27, R42, R43) -/

/-- R27: the single bits of STATUS. -/
theorem status_bits (s : State) :
    (s.regWord .status).getLsbD 0 = s.busy ∧ (s.regWord .status).getLsbD 2 = s.status.accErr ∧
      (s.regWord .status).getLsbD 16 = s.status.keyValid ∧ (s.regWord .status).getLsbD 17 = s.status.ptValid ∧
        (s.regWord .status).getLsbD 18 = s.status.ctValid ∧ (s.regWord .status).getLsbD 19 = s.status.digestValid := by
  simp only [State.regWord, State.statusWord, BitVec.getLsbD_append, BitVec.getLsbD_ofBool]
  simp

/-- R27, R43: ERRCODE, and the reserved bits of STATUS. -/
theorem status_fields (s : State) :
    (s.regWord .status).extractLsb' 8 4 = s.status.errCode.bits ∧ (s.regWord .status).extractLsb' 3 5 = 0#5 ∧
      (s.regWord .status).extractLsb' 12 4 = 0#4 ∧ (s.regWord .status).extractLsb' 20 12 = 0#12 := by
  simp (disch := decide) only [State.regWord, State.statusWord, BitVec.extractLsb'_append_eq_of_le,
    BitVec.extractLsb'_append_eq_of_add_le]
  simp

/-- R26, R43: the reserved bits of CTRL. -/
theorem ctrl_reserved (s : State) : (s.regWord .ctrl).extractLsb' 1 31 = 0#31 := by
  rw [State.regWord]
  ext i hi
  simp

/-- R34, R43: the reserved bits of a length register, and its value below them. -/
theorem len_fields (s : State) (w : Window) :
    (s.regWord (.len w)).extractLsb' 17 15 = 0#15 ∧ (s.regWord (.len w)).extractLsb' 0 17 = s.lenOf w := by
  rw [State.regWord]
  constructor
  · ext i hi
    simp
  · rw [BitVec.extractLsb'_setWidth_of_le (by decide), BitVec.extractLsb'_eq_self]

theorem memWrite_ctrl (v : Word) (s : State) : memWrite 0x00010 v s = { s with ctrlIE := v.getLsbD 0 } :=
  memWrite_reg (target_ctrl _) v

theorem memWrite_status (v : Word) (s : State) :
    memWrite 0x00014 v s = { s with status := s.status.onStatusWrite v } :=
  memWrite_reg (target_status _) v

/-- R27: a STATUS write looks at bits 1 and 2 of the value alone. -/
theorem onStatusWrite_congr {v u : Word} (h1 : v.getLsbD 1 = u.getLsbD 1) (h2 : v.getLsbD 2 = u.getLsbD 2) (st : Status) :
    st.onStatusWrite v = st.onStatusWrite u := by
  rw [Status.onStatusWrite, Status.onStatusWrite, h1, h2]

/-- Settles O25: the fields by their places in the word, the reads by what a register read answers, the writes by the bits they
look at. -/
theorem statusLayoutAndReservedBits : Obligations.StatusLayoutAndReservedBits := by
  intro s
  obtain ⟨hbusy, hacc, hkey, hpt, hct, hdigest⟩ := status_bits s
  obtain ⟨hcode, hlow, hmid, hhigh⟩ := status_fields s
  refine ⟨hbusy, status_bit_done s, hacc, hcode, hkey, hpt, hct, hdigest, hlow, hmid, hhigh, ctrl_reserved s,
    fun w => (len_fields s w).1, ctrl_bit_ie s, fun w => (len_fields s w).2, memRead_reg (target_ctrl _) (by simp),
    memRead_reg (target_status _) (by simp), fun w => memRead_reg (target_lenAddr _ w) (by simp), fun v => ⟨?_, ?_⟩⟩
  · rw [memWrite_ctrl, memWrite_ctrl, BitVec.getLsbD_and]
    simp
  · rw [memWrite_status, memWrite_status, onStatusWrite_congr (u := v &&& 6#32)]
    · simp
    · simp

/-- Settles O26: the two write rules, and IE as bit 0 of CTRL. -/
theorem statusWriteClears : Obligations.StatusWriteClears := by
  refine fun s v => ⟨?_, memWrite_ctrl v s, ?_⟩
  · have cleared : ∀ b c : Bool, (b && !c) = if c then false else b := by decide
    rw [memWrite_status, Status.onStatusWrite, cleared, cleared]
  · rw [memWrite_ctrl, ctrl_bit_ie]

/-- Settles O28: each event fixes DONE or IE, of which IRQ is the conjunction; the engine's turn sets DONE whatever was written
before it. -/
theorem interruptLifeCycle : Obligations.InterruptLifeCycle := by
  refine fun s v => ⟨fun hv => ?_, fun hidle => ?_, fun hv => ?_, fun hdone hv => ?_, fun hbusy => ?_⟩
  · rw [memWrite_status, State.irq, onStatusWrite_done, hv]
    simp
  · rw [memWrite_cmd_idle hidle, accept_irq]
  · rw [memWrite_ctrl, State.irq, hv, Bool.false_and]
  · rw [memWrite_ctrl, State.irq, hv, hdone, Bool.true_and]
  · rw [memWrite_status]
    obtain ⟨t, ht, -, hdone, hirq, -⟩ := engineTurnCompletes { s with status := s.status.onStatusWrite v } hbusy
    exact ⟨t, ht, hdone, hirq⟩

/-! ### The length registers (R34) -/

theorem memWrite_len_busy {s : State} (h : s.seq = .busy) (w : Window) (v : Word) :
    memWrite (lenAddr w) v s = refusedWrite s := by
  rw [memWrite_reg (target_lenAddr _ w), regWrite, writeLen, if_pos (busy_of_seq h)]
  rfl

theorem memWrite_len_idle {s : State} (h : s.seq = .idle) (w : Window) (v : Word) :
    memWrite (lenAddr w) v s = if w.cap s.cfg < v.toNat then refusedWrite s else setLen w (v.setWidth 17) s := by
  rw [memWrite_reg (target_lenAddr _ w), regWrite, writeLen, idle_not_busy h, if_neg Bool.false_ne_true]
  rfl

/-- R34: a value within a capacity fits the register. -/
theorem setWidth_toNat_of_le_cap {c : Config} (hwf : c.wf = true) {w : Window} {v : Word} (hv : v.toNat ≤ w.cap c) :
    (v.setWidth 17).toNat = v.toNat := by
  rw [BitVec.toNat_setWidth, Nat.mod_eq_of_lt (Nat.lt_of_le_of_lt hv (cap_lt hwf w))]

/-- Settles O29: refused, or the one update of a length register, whose value reads back in full. -/
theorem lengthRegisterWrite : Obligations.LengthRegisterWrite := by
  refine fun s w v hwf => ⟨fun hbusy => memWrite_len_busy hbusy w v, fun hidle hv => ?_, fun hidle hv => ?_⟩
  · rw [memWrite_len_idle hidle, if_pos hv]
  · have hfits := setWidth_toNat_of_le_cap hwf hv
    have hword : (setLen w (v.setWidth 17) s).regWord (.len w) = v := by
      rw [State.regWord, setLen_lenOf, if_pos rfl]
      apply BitVec.eq_of_toNat_eq
      rw [BitVec.toNat_setWidth, hfits, Nat.mod_eq_of_lt v.isLt]
    rw [memWrite_len_idle hidle, if_neg (Nat.not_lt.2 hv)]
    refine ⟨by simpa using hfits, by simp, hword, fun u hu => by simp [hu], by simp, ?_⟩
    simp [hidle]

/-! ### Words of the buffers and of DIGEST (R61, R62, R64, R65) -/

/-- R11, R64: lane `j` of a little-endian word is its byte `j`. -/
theorem le32_lane (f : Nat → Byte) {j : Nat} (hj : j < 4) :
    (le32 (f 0) (f 1) (f 2) (f 3)).extractLsb' (8 * j) 8 = f j := by
  obtain ⟨h0, h1, h2, h3⟩ := le32_lanes (f 0) (f 1) (f 2) (f 3)
  obtain rfl | rfl | rfl | rfl : j = 0 ∨ j = 1 ∨ j = 2 ∨ j = 3 := by omega
  · exact h0
  · exact h1
  · exact h2
  · exact h3

theorem bufWord_lane (s : State) (w : Window) (i : Nat) {j : Nat} (hj : j < 4) :
    (s.bufWord w i).extractLsb' (8 * j) 8 = s.bufByte w (i + j) :=
  le32_lane (fun j => s.bufByte w (i + j)) hj

theorem digestWord_lane (s : State) (k : Fin 8) {j : Nat} (hj : j < 4) :
    (s.digestWord k).extractLsb' (8 * j) 8 = s.digest.toList.getD (4 * k.val + j) 0 :=
  le32_lane (fun j => s.digestByte (4 * k.val + j)) hj

/-- R64: the bytes that a bus word writes are its lanes. -/
theorem le32Bytes_getElem (v : Word) {j : Nat} (hj : j < (le32Bytes v).length) :
    (le32Bytes v)[j] = v.extractLsb' (8 * j) 8 := by
  rw [le32Bytes_length] at hj
  obtain rfl | rfl | rfl | rfl : j = 0 ∨ j = 1 ∨ j = 2 ∨ j = 3 := by omega
  all_goals rfl

/-- A word is known by its lanes. -/
theorem word_eq_of_lanes {u v : Word} (h : ∀ j < 4, u.extractLsb' (8 * j) 8 = v.extractLsb' (8 * j) 8) : u = v := by
  rw [← le32_of_bytes u, ← le32_of_bytes v]
  exact congr (congr (congrArg₂ le32 (h 0 (by decide)) (h 1 (by decide))) (h 2 (by decide))) (h 3 (by decide))

/-- R62: the bytes of a buffer word after it has been written. -/
theorem writeBuf_word_lane (s : State) (w : Window) (i : Nat) (v : Word) {j : Nat} (hj : j < 4) :
    (writeBuf w i (le32Bytes v) s).bufByte w (i + j) = v.extractLsb' (8 * j) 8 := by
  rw [writeBuf_bufByte_in _ _ _ _ _ (by rwa [le32Bytes_length]), le32Bytes_getElem]

/-- R75: a buffer word reads back as it was written. -/
theorem writeBuf_bufWord (s : State) (w : Window) (i : Nat) (v : Word) :
    (writeBuf w i (le32Bytes v) s).bufWord w i = v :=
  word_eq_of_lanes fun _ hj => (bufWord_lane _ w i hj).trans (writeBuf_word_lane s w i v hj)

theorem memRead_buf_idle {a : Addr} {w : Window} {i : Nat} {s : State} (h : target s.cfg a = .buf w i)
    (hidle : s.seq = .idle) : memRead a s = reply (s.bufWord w i) s := by
  rw [memRead_buf h, idle_not_busy hidle, if_neg Bool.false_ne_true]

theorem memWrite_buf_idle {a : Addr} {w : Window} {i : Nat} {s : State} (h : target s.cfg a = .buf w i)
    (hidle : s.seq = .idle) (v : Word) : memWrite a v s = writeBuf w i (le32Bytes v) s := by
  rw [memWrite_buf h, idle_not_busy hidle, if_neg Bool.false_ne_true]

/-- Settles O30: the write is of the four bytes of the word, which the read puts together again. -/
theorem bufferWordWriteThenRead : Obligations.BufferWordWriteThenRead := by
  intro s a w k v hwf hidle ha hk
  have htarget := target_window hwf ha hk
  have hcap := cap_le hwf w
  rw [memWrite_buf_idle htarget hidle]
  refine ⟨fun j hj => writeBuf_word_lane s w (4 * k) v hj, fun u i hi hout => ?_, rfl, ?_,
    s.bufWord w (4 * k), memRead_buf_idle htarget hidle, fun j hj => bufWord_lane s w (4 * k) hj⟩
  · by_cases hu : u = w
    · subst hu
      have hlane : ¬(4 * k ≤ i ∧ i < 4 * k + 4) := fun h => hout ⟨rfl, h⟩
      exact writeBuf_bufByte_out _ _ _ _ _ _ (by rw [le32Bytes_length]; omega)
    · exact writeBuf_bufByte_other hu s (by rw [le32Bytes_length]; omega) (hi.trans_le (cap_le hwf u))
  · rw [memRead_buf_idle (s := writeBuf w (4 * k) (le32Bytes v) s) htarget hidle, writeBuf_bufWord]
    rfl

/-- R61: a register read while IDLE, DIGEST0 to DIGEST7 included. -/
theorem memRead_reg_idle {a : Addr} {r : Reg} {s : State} (h : target s.cfg a = .reg r) (hidle : s.seq = .idle) :
    memRead a s = reply (s.regWord r) s := by
  by_cases hd : ∃ k, r = .digest k
  · obtain ⟨k, rfl⟩ := hd
    rw [memRead_digest h, idle_not_busy hidle, if_neg Bool.false_ne_true]
    rfl
  · exact memRead_reg h fun k hk => hd ⟨k, hk⟩

/-- Settles O31: the read answers the register's word, whose lanes are bytes of DIGEST. -/
theorem digestWordLanes : Obligations.DigestWordLanes := fun s _ k hidle ha =>
  ⟨s.digestWord k, memRead_reg_idle (target_digest _ ha) hidle, fun _ hj => digestWord_lane s k hj⟩

/-! ### The busy lockout (R70) -/

/-- Settles O32: each address by what it selects, and what an access to that does while BUSY. -/
theorem busyLockout : Obligations.BusyLockout := by
  intro s hwf hbusy
  have hb := busy_of_seq hbusy
  refine ⟨fun w k a ha hk => ⟨fun v => ?_, ?_⟩, memWrite_len_busy hbusy, memWrite_cmd_busy hbusy, fun k a ha => ?_, ?_,
    fun v => ⟨memWrite_ctrl v s, memWrite_status v s⟩⟩
  · rw [memWrite_buf (target_window hwf ha hk), if_pos hb]
  · rw [memRead_buf (target_window hwf ha hk), if_pos hb]
    exact ⟨_, rfl⟩
  · rw [memRead_digest (target_digest _ ha), if_pos hb]
    exact ⟨_, rfl⟩
  · simp only [List.forall_mem_cons]
    exact ⟨memRead_reg (target_id _) (by simp), memRead_reg (target_cfg _) (by simp), memRead_reg (target_keyCap _) (by simp),
      memRead_reg (target_dataCap _) (by simp), memRead_reg (target_ctrl _) (by simp), memRead_reg (target_status _) (by simp),
      memRead_reg (target_lenAddr _ .key) (by simp), memRead_reg (target_lenAddr _ .pt) (by simp),
      memRead_reg (target_lenAddr _ .ct) (by simp), by simp⟩

/-! ### Refused accesses, and reads (R68, R71, R255) -/

/-- R68: every legal address is a multiple of 4. -/
theorem mapped_aligned {c : Config} {a : Addr} (h : mapped c a) : a.toNat % 4 = 0 := by
  obtain hreg | ⟨w, k, ha, -⟩ := h
  · have aligned : ∀ off ∈ regOffsets, off % 4 = 0 := by decide
    exact aligned _ hreg
  · have hbase : w.base % 4 = 0 := by cases w <;> rfl
    omega

/-- An access is refused exactly at the addresses that are not legal. -/
theorem refused_iff_not_mapped {c : Config} (hwf : c.wf = true) (a : Addr) :
    (∃ why, target c a = .refused why) ↔ ¬mapped c a := by
  rw [target_refused_iff hwf]
  exact ⟨fun h hm => h.elim (fun hmis => hmis (mapped_aligned hm)) fun hn => hn hm, .inr⟩

/-- R255: a read that is refused. -/
theorem memRead_not_mapped {s : State} {a : Addr} (hwf : s.cfg.wf = true) (h : ¬mapped s.cfg a) :
    memRead a s = reply 0 (refusedWrite s) := by
  obtain ⟨why, htarget⟩ := (refused_iff_not_mapped hwf a).2 h
  exact memRead_refused htarget

/-- R71: a read at a legal address leaves STATUS. -/
theorem memRead_mapped_status {s : State} {a : Addr} (hwf : s.cfg.wf = true) (h : mapped s.cfg a) :
    (memRead a s).status = s.status := by
  obtain ⟨why, htarget, -⟩ | ⟨-, hx⟩ | ⟨d, hx⟩ := memRead_cases a s
  · exact absurd h ((refused_iff_not_mapped hwf a).1 ⟨why, htarget⟩)
  · rw [hx, replyDrawn_status]
  · rw [hx, reply_status]

/-- Settles O33: such an address selects nothing, so the access is refused; a legal one selects something. -/
theorem illegalAddressesRefused : Obligations.IllegalAddressesRefused := by
  refine fun s a hwf => ⟨fun h => ?_, memRead_mapped_status hwf⟩
  obtain ⟨why, htarget⟩ := (target_refused_iff hwf a).2 h
  exact ⟨memRead_refused htarget, memWrite_refused htarget⟩

theorem reply_regWord (d : Word) (s : State) (r : Reg) : (reply d s).regWord r = s.regWord r := by
  cases r with
  | len w => cases w <;> rfl
  | _ => rfl

theorem reply_bufWord (d : Word) (s : State) (w : Window) (i : Nat) : (reply d s).bufWord w i = s.bufWord w i := by
  simp only [State.bufWord, (leavesRunning_reply d s).buffers.bytes]

/-- R71: what the host has read before does not change what an IDLE block answers. -/
theorem memRead_reply_head {s : State} (hidle : s.seq = .idle) (a : Addr) (d : Word) :
    (memRead a (reply d s)).replies.head? = (memRead a s).replies.head? := by
  cases htarget : target s.cfg a with
  | refused why => rw [memRead_refused htarget, memRead_refused (s := reply d s) htarget]; rfl
  | reg r =>
    rw [memRead_reg_idle htarget hidle, memRead_reg_idle (s := reply d s) htarget hidle, reply_regWord]
    rfl
  | buf w i =>
    rw [memRead_buf_idle htarget hidle, memRead_buf_idle (s := reply d s) htarget hidle, reply_bufWord]
    rfl

/-- R71: while IDLE a read gives the same word again. -/
theorem memRead_twice {s : State} (hidle : s.seq = .idle) (a : Addr) :
    (memRead a (memRead a s)).replies.head? = (memRead a s).replies.head? := by
  obtain ⟨why, htarget, hx⟩ | ⟨hbusy, -⟩ | ⟨d, hx⟩ := memRead_cases a s
  · rw [hx, memRead_refused (s := reply 0 (refuseAccess why s)) htarget]
    rfl
  · exact (not_idle_and_busy hidle hbusy).elim
  · exact (congrArg (fun t => (memRead a t).replies.head?) hx).trans (memRead_reply_head hidle a d)

/-- The whole effect of a read: a reply, the draw that it may be, and ACCERR. -/
theorem memRead_effect (a : Addr) (s : State) :
    ∃ (d : Word) (n : Nat), s.draws ≤ n ∧ (s.seq = .idle → n = s.draws) ∧ memRead a s = { s with
      replies := d :: s.replies
      draws := n
      status := { s.status with accErr := (memRead a s).status.accErr } } := by
  obtain ⟨why, -, hx⟩ | ⟨hbusy, hx⟩ | ⟨d, hx⟩ := memRead_cases a s <;> rw [hx]
  · exact ⟨0, s.draws, le_rfl, fun _ => rfl, rfl⟩
  · exact ⟨_, s.draws + 1, Nat.le_succ _, fun hidle => (not_idle_and_busy hidle hbusy).elim, rfl⟩
  · exact ⟨d, s.draws, le_rfl, fun _ => rfl, rfl⟩

/-- R30: no read clears ACCERR. -/
theorem memRead_accErr_stays {s : State} (h : s.status.accErr = true) (a : Addr) : (memRead a s).status.accErr = true := by
  obtain ⟨why, -, hx⟩ | ⟨-, hx⟩ | ⟨d, hx⟩ := memRead_cases a s <;> rw [hx]
  · rfl
  · exact h
  · exact h

/-- Settles O34: the effect of a read, and ACCERR by whether its address is legal. -/
theorem readsHaveNoSideEffect : Obligations.ReadsHaveNoSideEffect := fun s a =>
  ⟨memRead_effect a s, fun h => memRead_accErr_stays h a,
    fun hwf => ⟨fun hm => by rw [memRead_mapped_status hwf hm], fun hm => by rw [memRead_not_mapped hwf hm]; rfl⟩,
    fun hidle => memRead_twice hidle a⟩

end Sys2Proof.Machine
end

section
/-! PROOFS. The output of the hash core (40_sha256_core.md R119) and the sizing of the keystream (42_keystream_expander.md
R168). -/

namespace Sys2Proof.Machine

open Sys2Proof

/-! ### The output bytes (R119) -/

/-- Reading a list index by index gives the list. -/
theorem ofFn_getD {α : Type} {n : Nat} {l : List α} (h : l.length = n) (d : α) :
    List.ofFn (fun i : Fin n => l.getD i.val d) = l := by
  refine List.ext_getElem (by simp [h]) fun i hi hl => ?_
  rw [List.getElem_ofFn, List.getD_eq_getElem _ _ hl]

theorem flatMap_be32Bytes (hv : Words8) :
    hv.toList.flatMap be32Bytes = be32Bytes hv.a ++ be32Bytes hv.b ++ be32Bytes hv.c ++ be32Bytes hv.d ++
      be32Bytes hv.e ++ be32Bytes hv.f ++ be32Bytes hv.g ++ be32Bytes hv.h := by
  simp [Words8.toList]

/-- R119: the 32 bytes of the output are those of the eight words. -/
theorem shaOutput_toList (hv : Words8) : (shaOutput hv).toList = hv.toList.flatMap be32Bytes := by
  rw [shaOutput, Vector.toList_ofFn]
  exact ofFn_getD (by simp [flatMap_be32Bytes]) 0

/-- Settles O40: the output is the words' bytes, of which the first and the last are read off. -/
theorem shaOutputBytes : Obligations.ShaOutputBytes := by
  intro hv
  rw [shaOutput_toList, flatMap_be32Bytes]
  exact ⟨rfl, fun _ => rfl, rfl, rfl⟩

/-! ### A longer keystream (R168) -/

/-- Exclusive-or uses as many bytes of the keystream as there are of the data. -/
theorem xorBytes_take (a k : ByteSeq) (h : a.length ≤ k.length) : xorBytes a (k.take a.length) = xorBytes a k := by
  rw [xorBytes, xorBytes, List.zipWith_eq_zipWith_take_min (l₂ := k), Nat.min_eq_left h, List.take_length]

/-- Settles O46: by R163 the bytes used are the keystream of the data's own length. -/
theorem keystreamSizingChangesNothing : Obligations.KeystreamSizingChangesNothing := by
  intro iters key data n hn
  rw [transform, keystreamPrefix iters key data.length n hn, xorBytes_take _ _ (by rwa [deriveKeystream_length])]

end Sys2Proof.Machine
end

section
/-! PROOFS. The statements about reset (10_state.md section 4, 70_reset_and_hazards.md section 1). -/

namespace Sys2Proof.Machine

open Sys2Proof

/-- Log entry 7: byte `k` of a drawn DIGEST. -/
theorem drawnDigest_getD (draw : Nat) {k : Nat} (hk : k < 32) :
    (drawnDigest draw).toList.getD k 0 = Config.freeByte draw (0x40 + k) := by
  rw [drawnDigest, Vector.toList_ofFn, List.getD_eq_getElem _ _ (by simpa using hk), List.getElem_ofFn]

/-- R37, R292: after a reset no byte of a buffer has been written. -/
theorem applyReset_bufByte (s : State) (w : Window) (i : Nat) :
    (applyReset s).bufByte w i = Config.freeByte s.draws (w.base + i) := by
  simp [State.bufByte]

theorem applyReset_regWord_len (s : State) (w : Window) : (applyReset s).regWord (.len w) = 0 := by
  rw [State.regWord, applyReset_lenOf]
  rfl

theorem applyReset_regWord_status (s : State) : (applyReset s).regWord .status = 0 := by
  simp [State.regWord, State.statusWord, State.busy, Status.cleared, ErrCode.bits]

/-- Settles O51, field by field of the reset's state. -/
theorem resetStepClears : Obligations.ResetStepClears := fun s =>
  ⟨applyReset s, rfl, rfl, rfl, applyReset_regWord_status s, fun w => ⟨applyReset_regWord_len s w, applyReset_validOf s w⟩, rfl,
    applyReset_irq s, rfl, rfl, rfl, rfl, applyReset_bufByte s, fun _ hk => drawnDigest_getD s.draws hk, Nat.lt_succ_self _⟩

/-- Settles O53: State.reset is one fixed state, whose registers are evaluated. -/
theorem resetRegisterValues : Obligations.ResetRegisterValues :=
  ⟨rfl, rfl, rfl, rfl, rfl, rfl, rfl, fun w => by cases w <;> rfl, rfl, rfl⟩

end Sys2Proof.Machine
end

section
/-! PROOFS. The statements about the host's conventions (45_host_boundary.md): malformed hex, and text read back from a
buffer. -/

namespace Sys2Proof.Machine

open Sys2Proof

/-! ### Malformed hex (R234, R235) -/

/-- R234: the characters that `VAL` has a value for. -/
def IsHexDigit (c : Char) : Prop := ('0' ≤ c ∧ c ≤ '9') ∨ ('a' ≤ c ∧ c ≤ 'f') ∨ ('A' ≤ c ∧ c ≤ 'F')

theorem isHexDigit_iff_toNat (c : Char) :
    IsHexDigit c ↔ (48 ≤ c.toNat ∧ c.toNat ≤ 57) ∨ (97 ≤ c.toNat ∧ c.toNat ≤ 102) ∨ (65 ≤ c.toNat ∧ c.toNat ≤ 70) :=
  Iff.rfl

theorem hexValue_of_isHexDigit {c : Char} (h : IsHexDigit c) : ∃ v, hexValue c = some v := by
  unfold hexValue
  obtain hc | hc | hc := (isHexDigit_iff_toNat c).1 h
  · exact ⟨_, if_pos hc⟩
  · exact ⟨_, by rw [if_neg (by omega), if_pos hc]⟩
  · exact ⟨_, by rw [if_neg (by omega), if_neg (by omega), if_pos hc]⟩

theorem hexValue_of_not_isHexDigit {c : Char} (h : ¬IsHexDigit c) : hexValue c = none := by
  rw [isHexDigit_iff_toNat, not_or, not_or] at h
  obtain ⟨hdec, hlower, hupper⟩ := h
  unfold hexValue
  rw [if_neg hdec, if_neg hlower, if_neg hupper]

/-- Pairs of digits are bytes, one for two characters. -/
theorem hexPairs_of_digits (text : List Char) (heven : text.length % 2 = 0) (h : ∀ c ∈ text, IsHexDigit c) :
    ∃ b, hexPairs text = some b ∧ 2 * b.length = text.length := by
  match text with
  | [] => exact ⟨[], rfl, rfl⟩
  | [_] => cases heven
  | hi :: lo :: rest =>
    have hrestEven : rest.length % 2 = 0 := by simp only [List.length_cons] at heven; omega
    simp only [List.forall_mem_cons] at h
    obtain ⟨hhi, hlo, hrest⟩ := h
    obtain ⟨vh, hvh⟩ := hexValue_of_isHexDigit hhi
    obtain ⟨vl, hvl⟩ := hexValue_of_isHexDigit hlo
    obtain ⟨bs, hbs, hlen⟩ := hexPairs_of_digits rest hrestEven hrest
    refine ⟨(vh ++ vl) :: bs, by simp [hexPairs, hvh, hvl, hbs], ?_⟩
    simp only [List.length_cons]
    omega

/-- One character that is no digit leaves no bytes. -/
theorem hexPairs_of_not_digit (text : List Char) (heven : text.length % 2 = 0) {c : Char} (hc : c ∈ text)
    (h : ¬IsHexDigit c) : hexPairs text = none := by
  match text with
  | [] => cases hc
  | [_] => cases heven
  | hi :: lo :: rest =>
    have hrestEven : rest.length % 2 = 0 := by simp only [List.length_cons] at heven; omega
    have hnone := hexValue_of_not_isHexDigit h
    obtain rfl | rfl | hrest : c = hi ∨ c = lo ∨ c ∈ rest := by simpa using hc
    · simp [hexPairs, hnone]
    · simp [hexPairs, hnone]
    · rw [hexPairs, hexPairs_of_not_digit rest hrestEven hrest h]
      cases hexValue hi <;> cases hexValue lo <;> rfl

/-- Settles O59: the length is checked first, and the pairs have bytes exactly when every character is a digit. -/
theorem hexDecodeErrors : Obligations.HexDecodeErrors := by
  refine fun text => ⟨fun hodd => if_pos hodd, fun heven ⟨c, hc, hbad⟩ => ?_, fun heven hdigits => ?_⟩
  · rw [hexDecode, if_neg (by omega), hexPairs_of_not_digit text heven hc hbad]
  · obtain ⟨b, hb, hlen⟩ := hexPairs_of_digits text heven hdigits
    exact ⟨b, by rw [hexDecode, if_neg (by omega), hb], hlen⟩

/-! ### Text and its UTF-8 bytes (R231, R232) -/

/-- Every character has a byte, so a text has no more characters than bytes. -/
theorem length_le_textBytes (text : List Char) : text.length ≤ (textBytes text).length := by
  induction text with
  | nil => exact le_rfl
  | cons c text ih =>
    obtain ⟨b, rest, hb⟩ := charBytes_cons c
    rw [textBytes_cons, hb]
    simp only [List.length_cons, List.length_append]
    omega

theorem decodeText_textBytes {n : Nat} (text : List Char) (h : text.length ≤ n) :
    decodeText n (textBytes text) = some text := by
  induction text generalizing n with
  | nil => cases n <;> rfl
  | cons c text ih =>
    cases n with
    | zero => cases h
    | succ n => rw [textBytes_cons, decodeText_charBytes, ih (Nat.le_of_succ_le_succ h), Option.map_some]

/-- Decoding answers no text but the one whose bytes it is given. -/
theorem textBytes_of_decodeText {n : Nat} {bytes : ByteSeq} {text : List Char} (h : decodeText n bytes = some text) :
    textBytes text = bytes := by
  induction n generalizing bytes text with
  | zero =>
    cases bytes with
    | nil => cases h; rfl
    | cons b rest => cases h
  | succ n ih =>
    cases bytes with
    | nil => cases h; rfl
    | cons b rest =>
      rw [decodeText] at h
      split at h
      · next hprefix =>
        obtain ⟨tail, htail, rfl⟩ := Option.map_eq_some_iff.1 h
        rw [textBytes_cons, ih htail]
        exact List.prefix_iff_eq_append.1 (List.isPrefixOf_iff_prefix.1 hprefix)
      · cases h

theorem readText_textBytes (text : List Char) : readText (textBytes text) = some text := by
  rw [readText, decodeText_textBytes text (length_le_textBytes text)]

theorem readText_of_no_text {bytes : ByteSeq} (h : ∀ text, textBytes text ≠ bytes) :
    readText bytes = Config.utf8DecodeInvalid bytes := by
  unfold readText
  split
  · next text hdecode => exact absurd (textBytes_of_decodeText hdecode) (h text)
  · rfl

/-! ### The reads of a buffer's words (R61, R64) -/

/-- The read of word `j` of a buffer. -/
def wordRead (w : Window) (j : Nat) : Event := .read (BitVec.ofNat 18 (w.base + 4 * j))

theorem readWords_eq_map (w : Window) (k : Nat) : readWords w k = (List.range k).map (wordRead w) := by
  induction k with
  | zero => rfl
  | succ k ih => rw [readWords, ih, List.range_succ, List.map_append]; rfl

/-- R63: the windows end with the address space. -/
theorem window_end_le (w : Window) : w.base + Window.size ≤ 2 ^ 18 := by cases w <;> decide

/-- A read of a word within the capacity answers it, while IDLE. -/
theorem perform_wordRead {s : State} {w : Window} {j : Nat} (hwf : s.cfg.wf = true) (hidle : s.seq = .idle)
    (hj : 4 * j + 3 < w.cap s.cfg) : perform (wordRead w j) s = .next (reply (s.bufWord w (4 * j)) s) := by
  have haddr : (BitVec.ofNat 18 (w.base + 4 * j)).toNat = w.base + 4 * j := by
    have hend := window_end_le w
    have hcap := cap_le hwf w
    rw [BitVec.toNat_ofNat, Nat.mod_eq_of_lt (by omega)]
  exact congrArg Host.Outcome.next (memRead_buf_idle (target_window hwf haddr hj) hidle)

/-- The words `js` of a buffer, in the order in which they are read. -/
def State.bufWords (s : State) (w : Window) (js : List Nat) : List Word := js.map fun j => s.bufWord w (4 * j)

/-- The reads of words within the capacity all complete while IDLE, and change nothing but the replies. -/
theorem run_wordReads (w : Window) (js : List Nat) {s : State} (hwf : s.cfg.wf = true) (hidle : s.seq = .idle)
    (hjs : ∀ j ∈ js, 4 * j + 3 < w.cap s.cfg) (hes : s.events = js.map (wordRead w)) :
    Host.Core.run core js.length s =
      .next { s with events := [], replies := (s.bufWords w js).reverse ++ s.replies } := by
  induction js generalizing s with
  | nil =>
    have hnone : s.events = [] := hes
    have hstate : s = { s with events := [] } := by rw [← hnone]
    exact congrArg Host.Outcome.next hstate
  | cons j js ih =>
    obtain ⟨hj, hrest⟩ := List.forall_mem_cons.1 hjs
    have hstep := (step_of_events hes).trans (perform_wordRead (s := { s with events := js.map (wordRead w) }) hwf hidle hj)
    rw [List.length_cons, run_succ hstep, ih (s := reply _ { s with events := js.map (wordRead w) }) hwf hidle hrest rfl]
    simp only [State.bufWords, reply_bufWord, List.map_cons, List.reverse_cons, List.append_assoc, List.singleton_append]
    rfl

/-- R64: the lanes of a buffer word are its four bytes. -/
theorem le32Bytes_bufWord (s : State) (w : Window) (i : Nat) :
    le32Bytes (s.bufWord w i) = [s.bufByte w i, s.bufByte w (i + 1), s.bufByte w (i + 2), s.bufByte w (i + 3)] := by
  have lane : ∀ j < 4, byteOfWord (s.bufWord w i) j = s.bufByte w (i + j) := fun _ hj => bufWord_lane s w i hj
  rw [le32Bytes, lane 0 (by decide), lane 1 (by decide), lane 2 (by decide), lane 3 (by decide)]
  rfl

/-- The lanes of the first `k` words are the first `4k` bytes. -/
theorem flatMap_bufWords (s : State) (w : Window) (k : Nat) :
    (s.bufWords w (List.range k)).flatMap le32Bytes = s.bufBytes w (4 * k) := by
  induction k with
  | zero => rfl
  | succ k ih =>
    have hbytes : s.bufBytes w (4 * (k + 1)) = s.bufBytes w (4 * k) ++ le32Bytes (s.bufWord w (4 * k)) := by
      rw [le32Bytes_bufWord]
      simp [State.bufBytes, Nat.mul_succ, List.range_succ]
    rw [hbytes, ← ih]
    simp [State.bufWords, List.range_succ]

theorem bufBytes_take (s : State) (w : Window) {n m : Nat} (h : n ≤ m) : (s.bufBytes w m).take n = s.bufBytes w n := by
  rw [State.bufBytes, ← List.map_take, List.take_range, Nat.min_eq_left h]
  rfl

/-- What the host makes of the replies to the reads of the words that hold `n` bytes: these bytes. -/
theorem repliedBytes_bufWords (s : State) (w : Window) (n : Nat) (earlier : List Word) :
    repliedBytes n ((s.bufWords w (List.range (wordsFor n))).reverse ++ earlier) = s.bufBytes w n := by
  have hcover : n ≤ 4 * wordsFor n := by rw [wordsFor]; omega
  rw [repliedBytes, List.take_left' (by simp [State.bufWords]), List.reverse_reverse, flatMap_bufWords,
    bufBytes_take s w hcover]

/-- R7: the words that hold `n` bytes within a capacity lie within it, which is a multiple of 4. -/
theorem wordsFor_within {c : Config} (hwf : c.wf = true) {w : Window} {n j : Nat} (hn : n ≤ w.cap c) (hj : j < wordsFor n) :
    4 * j + 3 < w.cap c := by
  have haligned := cap_aligned hwf w
  rw [wordsFor] at hj
  omega

/-- Settles O60: decoding undoes the encoding and nothing else, and the host's reads answer the buffer's words. -/
theorem hostReadsTextBack : Obligations.HostReadsTextBack := by
  refine ⟨readText_textBytes, fun _ => readText_of_no_text, fun s w n hwf hidle hn hes => ?_⟩
  have hrun := run_wordReads w (List.range (wordsFor n)) hwf hidle
    (fun j hj => wordsFor_within hwf hn (List.mem_range.1 hj)) (hes.trans (readWords_eq_map w _))
  rw [List.length_range] at hrun
  have hbytes := repliedBytes_bufWords s w n s.replies
  refine ⟨_, hrun, hbytes, fun text htext => ?_⟩
  rw [repliedText, hbytes, htext, readText_textBytes]

end Sys2Proof.Machine
end
